-- ==== Sys2Proof/Word.lean ====
section
/-! DEFINITION. The word types of the core (spec 00 R8): bytes, 32-bit unsigned values and signed 16-bit samples. -/

namespace Sys2Proof

/-- A byte, the unit of IN, PLANE and OUT (R8, R51). -/
abbrev Byte := BitVec 8

/-- A 32-bit unsigned value: WIDTH, HEIGHT, a plane byte count, a long-run length (R8, R24, R28, R77). -/
abbrev U32 := BitVec 32

/-- An `s16` sample of CO or CG: 16 bits read in two's complement with `BitVec.toInt` (R8, R31). -/
abbrev Sample := BitVec 16

end Sys2Proof
end

