-- ==== Sys2Proof/Config.lean ====
section
/-! DEFINITION. What is fixed for a machine: the parameters of spec 00 R6 and the free values, which nothing evaluates. -/

namespace Sys2Proof

/-- `BYTE_ORDER` (R6, R53). -/
inductive ByteOrder where
  | le | be
deriving DecidableEq, Repr, Inhabited

/-- The environment's `can_allocate` (R6), as data: a machine holds no function (log entry 3). -/
inductive Allocation where
  /-- Left OPEN, as R6 leaves it: the answers are those of the uninterpreted `Config.canAllocate`. -/
  | unknown
  /-- An environment that is known: it denies exactly the listed requests. -/
  | denying (requests : List (List Nat))
deriving DecidableEq, Repr

/-- The four parameters of R6. The machine takes them as an argument: they are a field of its state, which nothing
changes. -/
structure Params where
  /-- `BYTE_ORDER`. -/
  byteOrder : ByteOrder
  /-- `MAX_SIZE`. -/
  maxSize : Nat
  /-- `can_allocate`. -/
  allocation : Allocation
  /-- `STRICT_TRAILER`. -/
  strictTrailer : Bool
deriving DecidableEq, Repr

/-- The values R6 gives the parameters: little endian (PRESUMED by the spec, D1; log entry 2), `2^32 - 1` (D8; log entry
4), `can_allocate` open (D9; log entry 3) and strict (D12; log entry 4). -/
def Config.params : Params := ⟨.le, 2 ^ 32 - 1, .unknown, true⟩

/-- `can_allocate` where it is left OPEN (R6, 93 I10): some function of the requested sizes, no value of which is known. -/
opaque Config.canAllocate : (need : List Nat) → Bool

/-! The free values: what the spec calls unspecified. Each is applied to the number of the draw (the field `draws` of the
state at that moment), to the slot that is filled in that draw, and for an array to the index in it. -/

/-- A byte the spec leaves unspecified (R34, R35, R107, R172). -/
opaque Config.freeByte : (draw slot index : Nat) → Byte

/-- A sample the spec leaves unspecified (R35, R107, R172). -/
opaque Config.freeSample : (draw slot index : Nat) → Sample

/-- A 32-bit register the spec leaves unspecified (R35, R172). -/
opaque Config.freeU32 : (draw slot : Nat) → U32

/-- A natural the spec leaves unspecified: a length, a target size or a working register not yet set (R35, R36, R172). -/
opaque Config.freeNat : (draw slot : Nat) → Nat

/-- A bit the spec leaves unspecified (R35, R172). -/
opaque Config.freeBit : (draw slot : Nat) → Bool

end Sys2Proof
end

