-- ==== Sys2Proof/Syntax.lean ====
section
/-! DEFINITION. The syntax: the four planes, the two chroma planes, what the host puts on the command interface, and
one constructor of `Instr` for every row of spec/opcode_table.json. -/

namespace Sys2Proof

/-- The four planes, indexed 0 = Y, 1 = Co, 2 = Cg, 3 = Alpha (R7). -/
inductive PlaneId where
  | y | co | cg | alpha
deriving DecidableEq, Repr, Inhabited

/-- One thing for each of the four planes: `PLANE[0..3]`, `PLANE_BYTE_COUNT[0..3]`, `base[0..3]` and so on (R28 to R30). -/
structure PerPlane (α : Type) where
  y : α
  co : α
  cg : α
  alpha : α
deriving DecidableEq, Repr, Inhabited

/-- The two chroma planes, which CLX and UPS are run on, Co before Cg (R85). -/
inductive Chroma where
  | co | cg
deriving DecidableEq, Repr, Inhabited

/-- A command as the host puts it to the core: a 2-bit code and the arguments of R82. An argument the code has no use for
is ignored. -/
structure HostCommand where
  code : BitVec 2
  w : U32
  h : U32
  input : List Byte
deriving DecidableEq, Repr, Inhabited

/-- The instructions of the core: one constructor per row of the opcode table. -/
inductive Instr where
  /-- HDR (R71, R103, R104): counts `a` to `d`, level `l`, subsampling byte `sub`, reserved bytes `x0` and `x1`. -/
  | hdr (a b c d : U32) (l sub x0 x1 : Byte)
  /-- PLANE.FILL (R121): the Alpha plane with byte count 0. -/
  | planeFill
  /-- PLANE.RLE (R123): plane `i` is a token stream. -/
  | planeRle (i : PlaneId)
  /-- PLANE.RAW (R122): plane `i` is stored uncompressed. -/
  | planeRaw (i : PlaneId)
  /-- RLE.LIT5 (R124): the literal at `remaining == 5`. -/
  | lit5 (v : Byte)
  /-- RLE.LIT (R125): an ordinary literal. -/
  | lit (v : Byte)
  /-- RLE.RUNS (R126): a short run of `L + 2` bytes. -/
  | runs (v len : Byte)
  /-- RLE.RUNL (R127): a long run of `n` bytes. -/
  | runl (v : Byte) (n : U32)
  /-- RLE.TRAIL (R128): the four trailer bytes. -/
  | trail (t u w z : Byte)
  /-- CLX (R140) of one chroma plane. -/
  | clx (c : Chroma)
  /-- UPS (R150) of one chroma plane whose rows are `w2` samples long. -/
  | ups (c : Chroma) (w2 : Nat)
  /-- CSC (R160) of the whole image. -/
  | csc
  /-- CMD.NEW_CONTEXT (R100). -/
  | newContext
  /-- CMD.SET_DIMENSIONS (R101). -/
  | setDimensions (w h : U32)
  /-- CMD.PROCESS_MESSAGE (R102) of the message `input`. -/
  | processMessage (input : List Byte)
  /-- CMD.RESERVED (R82): code 11, no such command. -/
  | reserved
deriving DecidableEq, Repr

end Sys2Proof
end

