-- ==== Sys2Proof/Machine/State.lean ====
section
/-! DEFINITION. The state of the core (spec 10), as plain data; the reasons a step can stop; the state right after reset. -/

namespace Sys2Proof.Machine

/-- STATUS (R33): how the last PROCESS_MESSAGE ended. Codes 6 and 7 are reserved and never written, so they have no
constructor (spec 93 I8). -/
inductive Status where
  | none | ok | malformedHeader | corruptRunLength | unsupportedDimensions | allocationFailure
deriving DecidableEq, Repr

/-- The four error kinds (R170). -/
inductive ErrorKind where
  | malformedHeader | corruptRunLength | unsupportedDimensions | allocationFailure
deriving DecidableEq, Repr

/-- The Decode Context: every field of R24 to R35. -/
structure Context where
  /-- WIDTH (R24). -/
  width : U32
  /-- HEIGHT (R25). -/
  height : U32
  /-- COLOR_LOSS_LEVEL (R26). -/
  colorLossLevel : Byte
  /-- SUBSAMPLING (R27). -/
  subsampling : Bool
  /-- PLANE_BYTE_COUNT[0..3] (R28). -/
  planeByteCount : PerPlane U32
  /-- PLANE_TARGET_SIZE[0..3] (R29). -/
  planeTargetSize : PerPlane Nat
  /-- PLANE[0..3] (R30). -/
  plane : PerPlane (List Byte)
  /-- CO (R31). -/
  co : List Sample
  /-- CG (R31). -/
  cg : List Sample
  /-- OUT (R32). -/
  out : List Byte
  /-- STATUS (R33). -/
  status : Status
  /-- OUTPUT_VALID (R34). -/
  outputValid : Bool
  /-- BUFFERS_VALID (R35). -/
  buffersValid : Bool
deriving DecidableEq, Repr

/-- The reset values of R39. -/
def Context.reset : Context where
  width := 0
  height := 0
  colorLossLevel := 0
  subsampling := false
  planeByteCount := ⟨0, 0, 0, 0⟩
  planeTargetSize := ⟨0, 0, 0, 0⟩
  plane := ⟨[], [], [], []⟩
  co := []
  cg := []
  out := []
  status := .none
  outputValid := false
  buffersValid := false

/-- The working registers of a running PROCESS_MESSAGE (R36). Each is an `int` that is never negative, so a natural
(log entry 18); `stop` is the spec's `end`. -/
structure Work where
  /-- `base[0..3]`: the payload offset of each plane (R104). -/
  base : PerPlane Nat
  /-- The RLD's input cursor, an offset into IN (R22). -/
  p : Nat
  /-- The plane's payload bound. -/
  stop : Nat
  /-- The output index. -/
  o : Nat
  /-- The countdown of bytes still to emit. -/
  remaining : Nat
  /-- The byte just read. -/
  value : Byte
  /-- The row index of UPS. -/
  r : Nat
  /-- The column index of UPS. -/
  k : Nat
  /-- The pixel index of CSC. -/
  i : Nat
  /-- The source index of CSC. -/
  j : Nat
deriving DecidableEq, Repr

/-- The place a running PROCESS_MESSAGE has reached (R22, R102), in the order of R59. -/
inductive Stage where
  /-- The header parse is next. -/
  | header
  /-- The mode of plane `i` is selected next. -/
  | plane (i : PlaneId)
  /-- The token loop of plane `i` is running. -/
  | tokens (i : PlaneId)
  /-- CLX of a chroma plane is next. -/
  | clx (c : Chroma)
  /-- UPS of a chroma plane is next. -/
  | ups (c : Chroma)
  /-- CSC is next. -/
  | csc
deriving DecidableEq, Repr

/-- What the core is doing. The message IN and the working registers exist only while a command runs (R36, R39, R50). -/
inductive Activity where
  /-- No NEW_CONTEXT has run on this instance (R190). -/
  | uncreated
  /-- Between commands (R186). -/
  | idle
  /-- PROCESS_MESSAGE of `input` runs and has reached `stage`. -/
  | running (input : List Byte) (work : Work) (stage : Stage)
deriving DecidableEq, Repr

/-- The state of the core and, as data, what stands around it. -/
structure State where
  /-- The Decode Context (R20). -/
  ctx : Context
  /-- What the core is doing (R22, R36, R186, R190). -/
  activity : Activity
  /-- The model's own: the commands the host has still to issue, first one first (log entry 6). -/
  pending : List HostCommand
  /-- The parameters of R6 (log entries 2, 3 and 4), fixed for the machine. -/
  params : Params
  /-- The model's own: how many times free values have been drawn (log entry 7). -/
  draws : Nat
deriving DecidableEq, Repr

/-- The state right after reset: NEW_CONTEXT has put every field to its value of R39 (R190), no command is pending,
and the parameters have the values of R6. -/
def State.reset : State where
  ctx := Context.reset
  activity := .idle
  pending := []
  params := Config.params
  draws := 0

/-- The address spaces of R50 and R51. -/
inductive Space where
  | input
  | plane (i : PlaneId)
  | co | cg | out
deriving DecidableEq, Repr

/-- Why the machine stops. -/
inductive Fault where
  /-- An access to an index at or beyond the length of an array. R51 says that none happens, and none does from a state
  that meets the invariant of Sys2Proof/Safety.lean. Raised by the array operations of Machine/Ops.lean. Safe. -/
  | arrayIndex (space : Space)
deriving DecidableEq, Repr

/-- Why an instruction is refused. -/
inductive Refusal where
  /-- The instruction has no meaning in the model yet. Raised by Dispatch alone. Safe. -/
  | notModelled (mnemonic : String)
  /-- Command code 11: "refused: no such command" (R82). Raised by `execReserved`. Safe. -/
  | reservedCommand
  /-- A command while another runs on the context has no step (R193, spec 93 I4). Raised by the commands. Safe. -/
  | commandRunning
  /-- Before the first NEW_CONTEXT a model gives no step except NEW_CONTEXT (R190). Raised by the other commands. Safe. -/
  | noContext
  /-- The core does not stand at this unit: it is at another stage, or the guard of the unit's row in the opcode table
  does not hold (log entry 14). Raised by the units of PROCESS_MESSAGE; a step never meets it. Safe. -/
  | notSelected
  /-- UPS with `w2 = 0`, or with a sample count that is no multiple of `w2` (spec 93 I16). Raised by `execUps`. Safe. -/
  | upsGeometry
deriving DecidableEq, Repr

/-- What a step answers. -/
abbrev Answer := Host.Outcome State Fault Refusal

end Sys2Proof.Machine
end

