-- ==== Sys2Proof/Machine/Flags.lean ====
section
/-! DEFINITION. The status state. The core has no condition flags (R23): its only status is STATUS (R33) and the two valid
bits (R34, R35). -/

namespace Sys2Proof.Machine

/-- The numeric code of STATUS (R33). -/
def statusCode : Status → BitVec 3
  | .none => 0
  | .ok => 1
  | .malformedHeader => 2
  | .corruptRunLength => 3
  | .unsupportedDimensions => 4
  | .allocationFailure => 5

/-- The STATUS an error records (R170, R171). -/
def errorStatus : ErrorKind → Status
  | .malformedHeader => .malformedHeader
  | .corruptRunLength => .corruptRunLength
  | .unsupportedDimensions => .unsupportedDimensions
  | .allocationFailure => .allocationFailure

/-- OUTPUT_VALID and BUFFERS_VALID put to 0 (R101, R102, R172). -/
def clearValid (c : Context) : Context := { c with outputValid := false, buffersValid := false }

/-- STATUS written. -/
def setStatus (c : Context) (st : Status) : Context := { c with status := st }

/-- STATUS, BUFFERS_VALID and OUTPUT_VALID as `commit` leaves them (R108). -/
def commitContext (c : Context) : Context :=
  { c with status := .ok, outputValid := true, buffersValid := true }

end Sys2Proof.Machine
end

