-- ==== Sys2Proof/WellFormed.lean ====
section
/-! DEFINITION. The instructions the encodings of spec 30 admit, as a Boolean check. -/

namespace Sys2Proof

/-- An instruction is well formed when the spec's encoding can express it: a short run's length byte is not `0xFF` (R76),
UPS has a row length of at least 1 (R150), and code 11 is no command (R82). Every other operand value is admitted. -/
def Instr.wellFormed : Instr → Bool
  | .hdr _ _ _ _ _ _ _ _ => true
  | .planeFill => true
  | .planeRle _ => true
  | .planeRaw _ => true
  | .lit5 _ => true
  | .lit _ => true
  | .runs _ len => len != 0xFF#8
  | .runl _ _ => true
  | .trail _ _ _ _ => true
  | .clx _ => true
  | .ups _ w2 => w2 != 0
  | .csc => true
  | .newContext => true
  | .setDimensions _ _ => true
  | .processMessage _ => true
  | .reserved => false

end Sys2Proof
end

