-- ==== Sys2Proof/Decode.lean ====
section
/-! DEFINITION. Decoding, total on what the core can be given at each place, rejecting by name; then the encoder,
written from the same formats of spec 30. -/

namespace Sys2Proof

/-! ## Multi-byte values (R53) -/

/-- Four bytes in stream order, assembled in a byte order (R53). -/
def assemble32 (bo : ByteOrder) (b0 b1 b2 b3 : Byte) : U32 :=
  match bo with
  | .le => BitVec.ofNat 32 (b0.toNat + 256 * b1.toNat + 65536 * b2.toNat + 16777216 * b3.toNat)
  | .be => BitVec.ofNat 32 (b3.toNat + 256 * b2.toNat + 65536 * b1.toNat + 16777216 * b0.toNat)

/-- Byte `k` of a 32-bit value, byte 0 the least significant. -/
def byteOf32 (n : U32) (k : Nat) : Byte := BitVec.ofNat 8 (n.toNat / 256 ^ k)

/-- The four bytes that `assemble32` assembles into `n`, in stream order (R53). -/
def bytes32 (bo : ByteOrder) (n : U32) : List Byte :=
  match bo with
  | .le => [byteOf32 n 0, byteOf32 n 1, byteOf32 n 2, byteOf32 n 3]
  | .be => [byteOf32 n 3, byteOf32 n 2, byteOf32 n 1, byteOf32 n 0]

/-- `MemRead(a, 1)` (R11). The caller has checked that `a` is below the length, as R11 asks, so the default of `getD` is
never what is read. -/
def memRead8 (bs : List Byte) (a : Nat) : Byte := bs.getD a 0

/-- `MemRead(a, 4)` (R11, R53), under the same check. -/
def memRead32 (bo : ByteOrder) (bs : List Byte) (a : Nat) : U32 :=
  assemble32 bo (memRead8 bs a) (memRead8 bs (a + 1)) (memRead8 bs (a + 2)) (memRead8 bs (a + 3))

/-! ## What is fetched, and why it can be rejected -/

/-- The encoded unit the core stands at (R70), with what selects its meaning. -/
inductive FetchUnit where
  /-- Format CMD (R82): what the host puts to an idle core. -/
  | command (c : HostCommand)
  /-- Format HDR (R71): the message from offset 0 on. -/
  | header (bytes : List Byte)
  /-- Format PSEL (R73): plane `i` with its byte count and target size. -/
  | plane (i : PlaneId) (count target : Nat)
  /-- A token (R74): `remaining` and the plane's payload from the cursor to its end. -/
  | token (remaining : Nat) (bytes : List Byte)
  /-- CLX, UPS and CSC have no encoding: the pipeline selects them (R85). -/
  | clx (c : Chroma)
  | ups (c : Chroma) (w2 : Nat)
  | csc
deriving DecidableEq, Repr

/-- Why a unit decodes to no instruction. Every one is a read past a bound, which raises an error of spec 60. -/
inductive Reject where
  /-- The message is shorter than the 20 header bytes (R103). -/
  | shortHeader
  /-- The token's first byte is past the payload (R123, first `need(1)`). -/
  | truncatedValue
  /-- The byte that tells a literal from a run is past the payload (R123, second `need(1)`). -/
  | truncatedPeek
  /-- The byte that tells a short run from a long one is past the payload (R123, third `need(1)`). -/
  | truncatedLength
  /-- A long run's 4 length bytes are not all in the payload (R127). -/
  | truncatedLongLength
  /-- The 4 trailer bytes are not all in the payload (R128). -/
  | truncatedTrailer
deriving DecidableEq, Repr

/-! ## The decoder -/

/-- Format CMD (R82). -/
def decodeCommand (c : HostCommand) : Instr :=
  if c.code = 0 then .newContext
  else if c.code = 1 then .setDimensions c.w c.h
  else if c.code = 2 then .processMessage c.input
  else .reserved

/-- Format HDR (R71, R72). -/
def decodeHeader (bo : ByteOrder) (bs : List Byte) : Except Reject Instr :=
  if bs.length < 20 then .error .shortHeader
  else .ok (.hdr (memRead32 bo bs 0) (memRead32 bo bs 4) (memRead32 bo bs 8) (memRead32 bo bs 12)
    (memRead8 bs 16) (memRead8 bs 17) (memRead8 bs 18) (memRead8 bs 19))

/-- Format PSEL (R73): the first row that matches, in the order FILL, RLE, RAW. -/
def decodePlane (i : PlaneId) (count target : Nat) : Instr :=
  if i = .alpha ∧ count = 0 then .planeFill
  else if count < target then .planeRle i
  else .planeRaw i

/-- The token at the cursor (R74), each byte read only when the tests before it have fallen through, and only within the
plane's payload (R123). -/
def decodeToken (bo : ByteOrder) (remaining : Nat) (bs : List Byte) : Except Reject Instr :=
  if remaining ≤ 4 then
    match bs with
    | t :: u :: w :: z :: _ => .ok (.trail t u w z)
    | _ => .error .truncatedTrailer
  else
    match bs with
    | [] => .error .truncatedValue
    | v :: afterValue =>
      if remaining = 5 then .ok (.lit5 v)
      else
        match afterValue with
        | [] => .error .truncatedPeek
        | m :: afterMarker =>
          if m ≠ v then .ok (.lit v)
          else
            match afterMarker with
            | [] => .error .truncatedLength
            | len :: afterLength =>
              if len ≠ 0xFF#8 then .ok (.runs v len)
              else
                match afterLength with
                | n0 :: n1 :: n2 :: n3 :: _ => .ok (.runl v (assemble32 bo n0 n1 n2 n3))
                | _ => .error .truncatedLongLength

/-- The instruction a unit encodes (R70). -/
def decode (bo : ByteOrder) : FetchUnit → Except Reject Instr
  | .command c => .ok (decodeCommand c)
  | .header bs => decodeHeader bo bs
  | .plane i count target => .ok (decodePlane i count target)
  | .token remaining bs => decodeToken bo remaining bs
  | .clx c => .ok (.clx c)
  | .ups c w2 => .ok (.ups c w2)
  | .csc => .ok .csc

/-! ## The encoder -/

/-- The stream bytes of an instruction, in the formats HDR (R71), T1 (R75), T3 (R76), T7 (R77) and T4 (R78). An
instruction of another format has no bytes in a message. -/
def encodeBytes (bo : ByteOrder) : Instr → List Byte
  | .hdr a b c d l sub x0 x1 =>
    bytes32 bo a ++ bytes32 bo b ++ bytes32 bo c ++ bytes32 bo d ++ [l, sub, x0, x1]
  | .planeFill => []
  | .planeRle _ => []
  | .planeRaw _ => []
  | .lit5 v => [v]
  | .lit v => [v]
  | .runs v len => [v, v, len]
  | .runl v n => [v, v, 0xFF#8] ++ bytes32 bo n
  | .trail t u w z => [t, u, w, z]
  | .clx _ => []
  | .ups _ _ => []
  | .csc => []
  | .newContext => []
  | .setDimensions _ _ => []
  | .processMessage _ => []
  | .reserved => []

/-- The contexts in which the core reads the bytes of a token as that token: `remaining` and the payload bytes that
follow the token's own (R74 to R78). -/
def Instr.admittedBefore (remaining : Nat) (after : List Byte) : Instr → Bool
  | .lit5 _ => remaining == 5
  | .lit v => decide (6 ≤ remaining) && (match after with | [] => false | m :: _ => m != v)
  | .runs _ _ => decide (6 ≤ remaining)
  | .runl _ _ => decide (6 ≤ remaining)
  | .trail _ _ _ _ => decide (remaining ≤ 4)
  | _ => false

/-- The encoding of an instruction as the unit it is fetched in: its bytes where it has some, in a shortest context that
selects it, and for the other formats the counts, the code or the stage that selects it (R73, R82, R85). -/
def encode (bo : ByteOrder) : Instr → FetchUnit
  | .hdr a b c d l sub x0 x1 => .header (encodeBytes bo (.hdr a b c d l sub x0 x1))
  | .planeFill => .plane .alpha 0 1
  | .planeRle i => .plane i 1 2
  | .planeRaw i => .plane i 1 1
  | .lit5 v => .token 5 (encodeBytes bo (.lit5 v))
  | .lit v => .token 6 (encodeBytes bo (.lit v) ++ [~~~v])
  | .runs v len => .token 6 (encodeBytes bo (.runs v len))
  | .runl v n => .token 6 (encodeBytes bo (.runl v n))
  | .trail t u w z => .token 4 (encodeBytes bo (.trail t u w z))
  | .clx c => .clx c
  | .ups c w2 => .ups c w2
  | .csc => .csc
  | .newContext => .command ⟨0, 0, 0, []⟩
  | .setDimensions w h => .command ⟨1, w, h, []⟩
  | .processMessage input => .command ⟨2, 0, 0, input⟩
  | .reserved => .command ⟨3, 0, 0, []⟩

/-! ## The opcode table's numbering -/

/-- The low `n` bytes of `w`, least significant first. -/
def bytesOfNat : Nat → Nat → List Byte
  | 0, _ => []
  | n + 1, w => BitVec.ofNat 8 w :: bytesOfNat n (w / 256)

/-- `remaining` for a token laid out from a table word: 4 for the 32-bit format T4, else the most a short run and a trailer
cover, `256 + 4`. -/
def tableRemaining (nbits : Nat) : Nat := if nbits = 32 then 4 else 260

/-- The bytes of a table word: the row's own bytes, then zeros up to the longest token, 7 bytes. A trailer ends its
payload (R128), so it has nothing after it, and a header is the whole message. -/
def tableBytes (nbits w : Nat) : List Byte :=
  if nbits = 32 then bytesOfNat 4 w
  else if nbits = 160 then bytesOfNat 20 w
  else bytesOfNat 7 w

/-- The unit a table word stands for. The table gives CMD 2 bits, one byte when rounded up, and the literal tokens 8 bits,
so an 8-bit word below 4 is a command code and any other is a literal (log entry 13). The widths 24, 32, 56 and 160 are
the formats T3, T4, T7 and HDR. -/
def tableUnit (nbits w : Nat) : Option FetchUnit :=
  if nbits ≤ 8 ∧ w < 4 then some (.command ⟨BitVec.ofNat 2 w, 0, 0, []⟩)
  else if nbits = 160 then some (.header (tableBytes nbits w))
  else if nbits = 8 ∨ nbits = 24 ∨ nbits = 32 ∨ nbits = 56 then
    some (.token (tableRemaining nbits) (tableBytes nbits w))
  else none

/-- The instruction the decoder reads from a word numbered as the opcode table numbers it. -/
def decodeTableWord (nbits w : Nat) : Option Instr :=
  match tableUnit nbits w with
  | none => none
  | some u =>
    match decode Config.params.byteOrder u with
    | .ok i => some i
    | .error _ => none

end Sys2Proof
end

