-- ==== Sys2Proof/Machine/Operands.lean ====
section
/-! DEFINITION. The numbers the stages compute: padding, plane sizes and the size lists (R9, R105 to R107), the 9-bit sign
extension of CLX (R140) and the pixel arithmetic of CSC (R160, R162, R163). -/

namespace Sys2Proof.Machine

/-! ## The four planes -/

/-- Entry `i` of a per-plane record. -/
def planeGet {α : Type} (f : PerPlane α) : PlaneId → α
  | .y => f.y
  | .co => f.co
  | .cg => f.cg
  | .alpha => f.alpha

/-- A per-plane record with entry `i` replaced. -/
def planeSet {α : Type} (f : PerPlane α) (i : PlaneId) (x : α) : PerPlane α :=
  match i with
  | .y => { f with y := x }
  | .co => { f with co := x }
  | .cg => { f with cg := x }
  | .alpha => { f with alpha := x }

/-- The plane a chroma sample array is expanded from: `PLANE[1]` for CO, `PLANE[2]` for CG (R140). -/
def chromaPlane : Chroma → PlaneId
  | .co => .co
  | .cg => .cg

/-- The address space of a chroma sample array (R51). -/
def chromaSpace : Chroma → Space
  | .co => .co
  | .cg => .cg

/-! ## Sizes -/

/-- `pad8(n)`: the least multiple of 8 that is at least `n` (R9). -/
def pad8 (n : Nat) : Nat := (n + 7) / 8 * 8

/-- `pad2(n)`: the least multiple of 2 that is at least `n` (R9). -/
def pad2 (n : Nat) : Nat := (n + 1) / 2 * 2

/-- The plane target sizes `T[0..3]` (R106). -/
def targetSizes (sub : Bool) (w h : Nat) : PerPlane Nat :=
  if sub then
    ⟨pad8 w * h, pad8 w / 2 * (pad2 h / 2), pad8 w / 2 * (pad2 h / 2), w * h⟩
  else
    ⟨w * h, w * h, w * h, w * h⟩

/-- `SC`: the chroma samples after UPS (R105). -/
def chromaSamples (sub : Bool) (w h : Nat) : Nat := if sub then pad8 w * pad2 h else w * h

/-- The sizes R105 compares with `MAX_SIZE`. -/
def checkedSizes (sub : Bool) (w h : Nat) : List Nat :=
  let t := targetSizes sub w h
  let sc := chromaSamples sub w h
  [t.y, t.co, t.cg, t.alpha, 2 * sc, 2 * sc, w * h * 4]

/-- The buffer sizes, in bytes, that R107 hands to `can_allocate`. -/
def neededSizes (sub : Bool) (w h : Nat) : List Nat :=
  let t := targetSizes sub w h
  let sc := chromaSamples sub w h
  [t.y, t.co, t.cg, t.alpha, 2 * t.co, 2 * t.cg, w * h * 4] ++ (if sub then [2 * sc, 2 * sc] else [])

/-- `total`: the sum of the four counts, on unbounded integers (R104). -/
def payloadTotal (counts : PerPlane U32) : Nat :=
  counts.y.toNat + counts.co.toNat + counts.cg.toNat + counts.alpha.toNat

/-- `base[0..3]`: where each plane's payload starts (R72, R104). -/
def planeBases (counts : PerPlane U32) : PerPlane Nat :=
  let b0 := 20
  let b1 := b0 + counts.y.toNat
  let b2 := b1 + counts.co.toNat
  let b3 := b2 + counts.cg.toNat
  ⟨b0, b1, b2, b3⟩

/-! ## CLX -/

/-- One sample of CLX: `v = c * 2^s` on unbounded integers, then `sext_9(v[8:0])` as an s16 (R140). -/
def expandByte (level c : Byte) : Sample :=
  (BitVec.ofNat 9 (c.toNat * 2 ^ level.toNat)).signExtend 16

/-! ## CSC -/

/-- `pad`: the positions CSC skips at the end of a row (R160). -/
def rowPad (sub : Bool) (w : Nat) : Nat := if sub then pad8 w - w else 0

/-- `low8` of an unbounded integer (R9). -/
def low8 (v : Int) : Byte := BitVec.ofInt 8 v

/-- The red, green and blue sums of R160, on unbounded integers, with halving truncated toward zero (R163). -/
def redSum (y : Byte) (co cg : Sample) : Int := (y.toNat : Int) + co.toInt.tdiv 2 - cg.toInt.tdiv 2

/-- See `redSum`. -/
def greenSum (y : Byte) (cg : Sample) : Int := (y.toNat : Int) + cg.toInt.tdiv 2

/-- See `redSum`. -/
def blueSum (y : Byte) (co cg : Sample) : Int := (y.toNat : Int) - co.toInt.tdiv 2 - cg.toInt.tdiv 2

/-- The stored alpha: 0x00 becomes 0xFF, every other byte is stored as it is (R162). -/
def storedAlpha (a : Byte) : Byte := if a = 0 then 0xFF#8 else a

/-- The four bytes of a pixel, in the order B, G, R, A (R52, R160). -/
def pixelBytes (y : Byte) (co cg : Sample) (a : Byte) : List Byte :=
  [low8 (blueSum y co cg), low8 (greenSum y cg), low8 (redSum y co cg), storedAlpha a]

end Sys2Proof.Machine
end

