-- ==== Sys2Proof/Machine/Ops.lean ====
section
/-! DEFINITION. The named operations: array accesses (spec 20), free values, updates of the state, taking an error
(spec 60), the stage order (R59), fetching the next unit, and what the host may read between commands. -/

namespace Sys2Proof.Machine

/-! ## Array accesses (R50, R51)

An array is held as the list of its elements, index 0 first (log entry 1). No index at or beyond its length exists. -/

/-- Element `k` of an array. -/
def readAt {α : Type} (sp : Space) (a : List α) (k : Nat) : Except Fault α :=
  match a[k]? with
  | some x => .ok x
  | none => .error (.arrayIndex sp)

/-- Elements `k .. k + n - 1` of an array, in increasing order. -/
def readRange {α : Type} (sp : Space) (a : List α) (k n : Nat) : Except Fault (List α) :=
  if k + n ≤ a.length then .ok ((a.drop k).take n) else .error (.arrayIndex sp)

/-- The array with `xs` written at indices `k .. k + len(xs) - 1`. -/
def writeAt {α : Type} (sp : Space) (a : List α) (k : Nat) (xs : List α) : Except Fault (List α) :=
  if k + xs.length ≤ a.length then .ok (a.take k ++ xs ++ a.drop (k + xs.length))
  else .error (.arrayIndex sp)

/-- An answer of the array operations as the outcome of a step. -/
def answerOf : Except Fault State → Answer
  | .ok s => .next s
  | .error f => .fault f

/-! ## Free values (log entries 7, 8 and 9) -/

/-- An array of `n` bytes with unspecified contents. -/
def freeBytes (draw slot n : Nat) : List Byte := (List.range n).map (Config.freeByte draw slot)

/-- An array of `n` samples with unspecified contents. -/
def freeSamples (draw slot n : Nat) : List Sample := (List.range n).map (Config.freeSample draw slot)

/-- The header fields when they are unspecified (R35): a free value each, and a target size stays at most `MAX_SIZE`
(R29). The other fields are kept. -/
def unspecifyHeader (P : Params) (draw : Nat) (c : Context) : Context :=
  { c with
    colorLossLevel := Config.freeByte draw 0 0
    subsampling := Config.freeBit draw 1
    planeByteCount :=
      ⟨Config.freeU32 draw 2, Config.freeU32 draw 3, Config.freeU32 draw 4, Config.freeU32 draw 5⟩
    planeTargetSize :=
      ⟨min (Config.freeNat draw 6) P.maxSize, min (Config.freeNat draw 7) P.maxSize,
        min (Config.freeNat draw 8) P.maxSize, min (Config.freeNat draw 9) P.maxSize⟩ }

/-- OUT, the planes and the chroma arrays when they are unspecified (R34, R35, R197): arrays of unspecified length and
contents. The other fields are kept. -/
def unspecifyBuffers (draw : Nat) (c : Context) : Context :=
  { c with
    plane :=
      ⟨freeBytes draw 10 (Config.freeNat draw 11), freeBytes draw 12 (Config.freeNat draw 13),
        freeBytes draw 14 (Config.freeNat draw 15), freeBytes draw 16 (Config.freeNat draw 17)⟩
    co := freeSamples draw 18 (Config.freeNat draw 19)
    cg := freeSamples draw 20 (Config.freeNat draw 21)
    out := freeBytes draw 22 (Config.freeNat draw 23) }

/-- Every field that R172 leaves unspecified after an error. -/
def unspecify (P : Params) (draw : Nat) (c : Context) : Context := unspecifyBuffers draw (unspecifyHeader P draw c)

/-- What SET_DIMENSIONS leaves unspecified (R35, R197): OUT and the buffers always; the header fields too, unless they still
hold the reset values of NEW_CONTEXT, which R35 excepts. They do while STATUS is NONE: no PROCESS_MESSAGE has completed since
the last NEW_CONTEXT (R33), and nothing else writes them (R21). -/
def invalidate (P : Params) (draw : Nat) (c : Context) : Context :=
  match c.status with
  | .none => unspecifyBuffers draw c
  | .ok => unspecify P draw c
  | .malformedHeader => unspecify P draw c
  | .corruptRunLength => unspecify P draw c
  | .unsupportedDimensions => unspecify P draw c
  | .allocationFailure => unspecify P draw c

/-- The working registers before a command has set them (R36). -/
def unsetWork (draw : Nat) : Work where
  base := ⟨Config.freeNat draw 0, Config.freeNat draw 1, Config.freeNat draw 2, Config.freeNat draw 3⟩
  p := Config.freeNat draw 4
  stop := Config.freeNat draw 5
  o := Config.freeNat draw 6
  remaining := Config.freeNat draw 7
  value := Config.freeByte draw 8 0
  r := Config.freeNat draw 9
  k := Config.freeNat draw 10
  i := Config.freeNat draw 11
  j := Config.freeNat draw 12

/-! ## Updates of the state -/

/-- The context replaced. -/
def withContext (s : State) (c : Context) : State := { s with ctx := c }

/-- The activity replaced. -/
def withActivity (s : State) (a : Activity) : State := { s with activity := a }

/-- One draw of free values counted. -/
def countDraw (s : State) : State := { s with draws := s.draws + 1 }

/-- `PLANE[i]` replaced. -/
def setPlane (c : Context) (i : PlaneId) (a : List Byte) : Context :=
  { c with plane := planeSet c.plane i a }

/-- CO or CG. -/
def chromaGet (c : Context) : Chroma → List Sample
  | .co => c.co
  | .cg => c.cg

/-- CO or CG replaced. -/
def setChroma (c : Context) (ch : Chroma) (a : List Sample) : Context :=
  match ch with
  | .co => { c with co := a }
  | .cg => { c with cg := a }

/-- OUT replaced. -/
def setOut (c : Context) (a : List Byte) : Context := { c with out := a }

/-! ## Taking an error (R12, R172)

There is no handler and no return from an error: the core takes the next command (R175). -/

/-- `raise Error(kind)`: the command ends at once; STATUS records the kind, both valid bits are 0, WIDTH and HEIGHT keep
their values, and every other field of the context is unspecified (R172). -/
def raiseError (k : ErrorKind) (s : State) : State :=
  { s with
    ctx := clearValid (setStatus (unspecify s.params s.draws s.ctx) (errorStatus k))
    activity := .idle
    draws := s.draws + 1 }

/-- The error a rejected unit raises: a short header MalformedHeader (R103), a read past the plane's payload
CorruptRunLength (R123, R127, R128). -/
def rejectError : Reject → ErrorKind
  | .shortHeader => .malformedHeader
  | .truncatedValue => .corruptRunLength
  | .truncatedPeek => .corruptRunLength
  | .truncatedLength => .corruptRunLength
  | .truncatedLongLength => .corruptRunLength
  | .truncatedTrailer => .corruptRunLength

/-! ## The stage order (R59, R102) -/

/-- The stage after plane `i` is decoded: the next plane, and CLX of Co after the last one. -/
def stageAfterPlane : PlaneId → Stage
  | .y => .plane .co
  | .co => .plane .cg
  | .cg => .plane .alpha
  | .alpha => .clx .co

/-- The stage after CLX: Co then Cg, then UPS when SUBSAMPLING is 1, else CSC (R85, R153). -/
def stageAfterClx (sub : Bool) : Chroma → Stage
  | .co => .clx .cg
  | .cg => if sub then .ups .co else .csc

/-- The stage after UPS: Co then Cg, then CSC. -/
def stageAfterUps : Chroma → Stage
  | .co => .ups .cg
  | .cg => .csc

/-- The end of a successful PROCESS_MESSAGE (R108): the valid bits and STATUS are set, the core is idle again, and IN and
the working registers are gone (R36, R194). -/
def commit (s : State) : State := { s with ctx := commitContext s.ctx, activity := .idle }

/-! ## Fetching -/

/-- The unit the core stands at: between commands the host's next command, if there is one; while a command runs, the unit
of the stage it has reached. -/
def fetch (s : State) : Option FetchUnit :=
  match s.activity with
  | .uncreated => s.pending.head?.map FetchUnit.command
  | .idle => s.pending.head?.map FetchUnit.command
  | .running input work stage =>
    match stage with
    | .header => some (.header input)
    | .plane i =>
      some (.plane i (planeGet s.ctx.planeByteCount i).toNat (planeGet s.ctx.planeTargetSize i))
    | .tokens _ => some (.token work.remaining ((input.drop work.p).take (work.stop - work.p)))
    | .clx c => some (.clx c)
    | .ups c => some (.ups c (pad8 s.ctx.width.toNat / 2))
    | .csc => some .csc

/-- The state in which the fetched unit is executed: a command leaves the host's list when the core takes it, and a unit of
a running command changes nothing yet. -/
def afterFetch (s : State) : State :=
  match s.activity with
  | .uncreated => { s with pending := s.pending.tail }
  | .idle => { s with pending := s.pending.tail }
  | .running _ _ _ => s

/-- A step with no unit to take: the idle core holds its context (R186), and an instance with no context has no step but
NEW_CONTEXT (R190). -/
def idleStep (s : State) : Answer :=
  match s.activity with
  | .uncreated => .refused .noContext
  | .idle => .next s
  | .running _ _ _ => .next s

/-! ## What the host may read (R21, R195, R196) -/

/-- The context as the host may read it: between commands, never while one runs (R21, R196). -/
def hostView (s : State) : Option Context :=
  match s.activity with
  | .uncreated => none
  | .idle => some s.ctx
  | .running _ _ _ => none

/-- The bitmap as the host may take it: only while OUTPUT_VALID is 1 (R195). -/
def hostBitmap (s : State) : Option (List Byte) :=
  match hostView s with
  | none => none
  | some c => if c.outputValid then some c.out else none

end Sys2Proof.Machine
end

