-- ==== Sys2Proof/Machine/Chroma.lean ====
section
/-! DEFINITION. The color-loss expander CLX (spec 42) and the chroma upsampler UPS (spec 43). -/

namespace Sys2Proof.Machine

/-- `CLX(P, s)`: one sample per byte (R140). -/
def expandPlane (level : Byte) (bytes : List Byte) : List Sample := bytes.map (expandByte level)

/-- CLX (R140): CO or CG becomes the expansion of its plane with the header's level. The planes are not changed. -/
def execClx (c : Chroma) (s : State) : Answer :=
  match s.activity with
  | .running input w (.clx c') =>
    if c' = c then
      .next (withActivity
        (withContext s (setChroma s.ctx c (expandPlane s.ctx.colorLossLevel (planeGet s.ctx.plane (chromaPlane c)))))
        (.running input w (stageAfterClx s.ctx.subsampling c)))
    else .refused .notSelected
  | _ => .refused .notSelected

/-- One pass of the inner loop of R150: sample `(r, k)` of `a` goes to its four places in `b`. -/
def upsSample (sp : Space) (a : List Sample) (w2 : Nat) (w : Work) (b : List Sample) : Except Fault (List Sample) := do
  let x ← readAt sp a (w.r * w2 + w.k)
  let b ← writeAt sp b (2 * w.r * (2 * w2) + 2 * w.k) [x, x]
  writeAt sp b ((2 * w.r + 1) * (2 * w2) + 2 * w.k) [x, x]

/-- The inner loop of R150: `n` more columns. -/
def upsColumns (sp : Space) (a : List Sample) (w2 : Nat) :
    Nat → Work → List Sample → Except Fault (Work × List Sample)
  | 0, w, b => .ok (w, b)
  | n + 1, w, b => do
    let b ← upsSample sp a w2 w b
    upsColumns sp a w2 n { w with k := w.k + 1 } b

/-- The outer loop of R150: `n` more rows. -/
def upsRows (sp : Space) (a : List Sample) (w2 : Nat) :
    Nat → Work → List Sample → Except Fault (Work × List Sample)
  | 0, w, b => .ok (w, b)
  | n + 1, w, b => do
    let (w, b) ← upsColumns sp a w2 w2 { w with k := 0 } b
    upsRows sp a w2 n { w with r := w.r + 1 } b

/-- `UPS(A, w2)` into the new array `fresh` of `4 * len(A)` samples (R150, R152). -/
def upsample (sp : Space) (a : List Sample) (w2 : Nat) (w : Work) (fresh : List Sample) :
    Except Fault (Work × List Sample) :=
  upsRows sp a w2 (a.length / w2) { w with r := 0 } fresh

/-- The operand condition of UPS (R150): `w2` is at least 1 and the sample count is a multiple of it. -/
def upsGeometryOk (count w2 : Nat) : Bool := decide (w2 ≠ 0) && decide (count % w2 = 0)

/-- UPS (R150): CO or CG is replaced by a new array, whose contents before the loop are unspecified (log entry 8). An
operand that breaks R150's condition is refused (spec 93 I16). -/
def execUps (c : Chroma) (w2 : Nat) (s : State) : Answer :=
  match s.activity with
  | .running input w (.ups c') =>
    if c' = c then
      let a := chromaGet s.ctx c
      if upsGeometryOk a.length w2 then
        answerOf (do
          let (w, b) ← upsample (chromaSpace c) a w2 w (freeSamples s.draws 0 (4 * a.length))
          return countDraw (withActivity (withContext s (setChroma s.ctx c b))
            (.running input w (stageAfterUps c))))
      else .refused .upsGeometry
    else .refused .notSelected
  | _ => .refused .notSelected

end Sys2Proof.Machine
end

