-- ==== Sys2Proof/Machine/Commands.lean ====
section
/-! DEFINITION. The family of the host commands (spec 40, R82, R100 to R102). -/

namespace Sys2Proof.Machine

/-- CMD.NEW_CONTEXT (R100): every field of the context takes its reset value of R39 and the core is idle. It is the one
command an instance without a context has (R190). The host's list, the parameters and the draw counter are not
fields of the context and stay. -/
def execNewContext (s : State) : Answer :=
  match s.activity with
  | .uncreated => .next (withActivity (withContext s Context.reset) .idle)
  | .idle => .next (withActivity (withContext s Context.reset) .idle)
  | .running _ _ _ => .refused .commandRunning

/-- CMD.SET_DIMENSIONS (R101): WIDTH and HEIGHT are written and the valid bits cleared, STATUS is unchanged. What
is unspecified from here on (R34, R35, R197) takes free values (log entry 7); the reset values of the header fields, which
R101 does not write, stay. -/
def execSetDimensions (w h : U32) (s : State) : Answer :=
  match s.activity with
  | .uncreated => .refused .noContext
  | .idle =>
    .next (countDraw (withContext s
      (clearValid { invalidate s.params s.draws s.ctx with width := w, height := h })))
  | .running _ _ _ => .refused .commandRunning

/-- CMD.PROCESS_MESSAGE (R102): the valid bits are cleared and the command starts on the message IN at its header. The
stages it then runs through, and its end, are the steps that follow (log entry 5). -/
def execProcessMessage (input : List Byte) (s : State) : Answer :=
  match s.activity with
  | .uncreated => .refused .noContext
  | .idle =>
    .next (countDraw (withActivity (withContext s (clearValid s.ctx))
      (.running input (unsetWork s.draws) .header)))
  | .running _ _ _ => .refused .commandRunning

/-- CMD.RESERVED (R82): code 11 has no meaning, "refused: no such command". -/
def execReserved (_s : State) : Answer := .refused .reservedCommand

end Sys2Proof.Machine
end

