-- ==== Sys2Proof/Machine/Convert.lean ====
section
/-! DEFINITION. The color-space converter CSC (spec 44), and the end of a successful message (R108). -/

namespace Sys2Proof.Machine

/-- One pass of the loop of R160: pixel `w.i` is computed from source index `j` and written to OUT. -/
def cscPixel (c : Context) (pad : Nat) (w : Work) (out : List Byte) : Except Fault (Work × List Byte) := do
  let j := if 0 < w.i ∧ w.i % c.width.toNat = 0 then w.j + pad else w.j
  let y ← readAt (.plane .y) c.plane.y j
  let co ← readAt .co c.co j
  let cg ← readAt .cg c.cg j
  let a ← readAt (.plane .alpha) c.plane.alpha w.i
  let out ← writeAt .out out (4 * w.i) (pixelBytes y co cg a)
  return ({ w with i := w.i + 1, j := j + 1 }, out)

/-- The loop of R160: `n` more pixels. -/
def cscPixels (c : Context) (pad : Nat) : Nat → Work → List Byte → Except Fault (Work × List Byte)
  | 0, w, out => .ok (w, out)
  | n + 1, w, out => do
    let (w, out) ← cscPixel c pad w out
    cscPixels c pad n w out

/-- `CSC()` on the whole image (R160): OUT after the loop. -/
def convertImage (c : Context) (w : Work) : Except Fault (List Byte) := do
  let (_, out) ← cscPixels c (rowPad c.subsampling c.width.toNat) (c.width.toNat * c.height.toNat)
    { w with i := 0, j := 0 } c.out
  return out

/-- CSC (R160), and with it `commit` (R108), which has no row of its own (log entry 5). -/
def execCsc (s : State) : Answer :=
  match s.activity with
  | .running _ w .csc =>
    answerOf (do
      let out ← convertImage s.ctx w
      return commit (withContext s (setOut s.ctx out)))
  | _ => .refused .notSelected

end Sys2Proof.Machine
end

