-- ==== Sys2Proof/Machine/Header.lean ====
section
/-! DEFINITION. The header unit and the steps of PROCESS_MESSAGE up to the first plane (spec 40, R103 to R107). -/

namespace Sys2Proof.Machine

/-- The fields the header parse writes (R72, R103). -/
def parseHeader (c : Context) (n0 n1 n2 n3 : U32) (level sub : Byte) : Context :=
  { c with
    planeByteCount := ⟨n0, n1, n2, n3⟩
    colorLossLevel := level
    subsampling := decide (sub ≠ 0) }

/-- `locate_planes` (R104): the plane bases, when the payload fits the input. -/
def locatePlanes (counts : PerPlane U32) (inLen : Nat) : Except ErrorKind (PerPlane Nat) :=
  if 20 + payloadTotal counts > inLen then .error .malformedHeader else .ok (planeBases counts)

/-- `check_dimensions` (R105). -/
def checkDimensions (P : Params) (c : Context) : Except ErrorKind Unit :=
  if c.width = 0 ∨ c.height = 0 then .error .unsupportedDimensions
  else if (checkedSizes c.subsampling c.width.toNat c.height.toNat).any (fun n => decide (n > P.maxSize)) then
    .error .unsupportedDimensions
  else .ok ()

/-- `compute_sizes` (R106). -/
def computeSizes (c : Context) : Context :=
  { c with planeTargetSize := targetSizes c.subsampling c.width.toNat c.height.toNat }

/-- `can_allocate` (R6): open, or known as data (log entry 3). -/
def canAllocate (P : Params) (need : List Nat) : Bool :=
  match P.allocation with
  | .unknown => Config.canAllocate need
  | .denying requests => !(requests.contains need)

/-- `allocate` (R107): every buffer gets its length. The plane and chroma contents are unspecified (log entry 8), OUT is
all zero. -/
def allocate (P : Params) (draw : Nat) (c : Context) : Except ErrorKind Context :=
  let t := c.planeTargetSize
  if canAllocate P (neededSizes c.subsampling c.width.toNat c.height.toNat) then
    .ok { c with
      plane := ⟨freeBytes draw 0 t.y, freeBytes draw 1 t.co, freeBytes draw 2 t.cg, freeBytes draw 3 t.alpha⟩
      co := freeSamples draw 4 t.co
      cg := freeSamples draw 5 t.cg
      out := List.replicate (c.width.toNat * c.height.toNat * 4) 0 }
  else .error .allocationFailure

/-- The steps of R102 from `locate_planes` to `allocate`, in its order (R173), on a context whose header fields are
parsed: the plane bases and the context with its buffers. -/
def prepare (P : Params) (draw inLen : Nat) (c : Context) :
    Except ErrorKind (PerPlane Nat × Context) :=
  match locatePlanes c.planeByteCount inLen with
  | .error k => .error k
  | .ok base =>
    match checkDimensions P c with
    | .error k => .error k
    | .ok () =>
      match allocate P draw (computeSizes c) with
      | .error k => .error k
      | .ok c' => .ok (base, c')

/-- HDR (R103, R104), and with it the steps of PROCESS_MESSAGE that have no row of their own and come before the first
plane (R105, R106, R107; log entry 5). Bytes 18 and 19 have no effect (R81). -/
def execHdr (n0 n1 n2 n3 : U32) (level sub _x0 _x1 : Byte) (s : State) : Answer :=
  match s.activity with
  | .running input w .header =>
    if input.length < 20 then .next (raiseError .malformedHeader s)
    else
      match prepare s.params s.draws input.length (parseHeader s.ctx n0 n1 n2 n3 level sub) with
      | .error k => .next (raiseError k s)
      | .ok (base, c) =>
        .next (countDraw (withActivity (withContext s c) (.running input { w with base := base } (.plane .y))))
  | _ => .refused .notSelected

end Sys2Proof.Machine
end

