-- ==== Sys2Proof/Machine/Planes.lean ====
section
/-! DEFINITION. The plane modes (spec 41, R120 to R123): fill, raw copy, and the entry of the token loop. -/

namespace Sys2Proof.Machine

/-- The guard of PLANE.FILL (R73). -/
def selectsFill (c : Context) (i : PlaneId) : Bool :=
  decide (i = .alpha) && decide ((planeGet c.planeByteCount i).toNat = 0)

/-- The guard of PLANE.RLE (R73). -/
def selectsRle (c : Context) (i : PlaneId) : Bool :=
  !selectsFill c i && decide ((planeGet c.planeByteCount i).toNat < planeGet c.planeTargetSize i)

/-- The guard of PLANE.RAW (R73). -/
def selectsRaw (c : Context) (i : PlaneId) : Bool :=
  !selectsFill c i && !decide ((planeGet c.planeByteCount i).toNat < planeGet c.planeTargetSize i)

/-- The whole of plane `i` written, and the core moved past it. -/
def finishPlane (s : State) (input : List Byte) (w : Work) (i : PlaneId) (bytes : List Byte) : Except Fault State := do
  let a ← writeAt (.plane i) (planeGet s.ctx.plane i) 0 bytes
  return withActivity (withContext s (setPlane s.ctx i a)) (.running input w (stageAfterPlane i))

/-- PLANE.FILL (R121): `T` bytes 0xFF, and no input byte read. -/
def execPlaneFill (s : State) : Answer :=
  match s.activity with
  | .running input w (.plane i) =>
    if selectsFill s.ctx i then
      answerOf (finishPlane s input w i (List.replicate (planeGet s.ctx.planeTargetSize i) 0xFF#8))
    else .refused .notSelected
  | _ => .refused .notSelected

/-- PLANE.RAW (R122): the first `T` bytes of the plane's payload, copied. -/
def execPlaneRaw (i : PlaneId) (s : State) : Answer :=
  match s.activity with
  | .running input w (.plane i') =>
    if i' = i ∧ selectsRaw s.ctx i then
      answerOf (do
        let bytes ← readRange .input input (planeGet w.base i) (planeGet s.ctx.planeTargetSize i)
        finishPlane s input w i bytes)
    else .refused .notSelected
  | _ => .refused .notSelected

/-- PLANE.RLE (R123): the working registers of the token loop are set, and the loop is entered. -/
def execPlaneRle (i : PlaneId) (s : State) : Answer :=
  match s.activity with
  | .running input w (.plane i') =>
    if i' = i ∧ selectsRle s.ctx i then
      .next (withActivity s (.running input
        { w with
          p := planeGet w.base i
          stop := planeGet w.base i + (planeGet s.ctx.planeByteCount i).toNat
          o := 0
          remaining := planeGet s.ctx.planeTargetSize i } (.tokens i)))
    else .refused .notSelected
  | _ => .refused .notSelected

end Sys2Proof.Machine
end

