-- ==== Sys2Proof/Machine/Tokens.lean ====
section
/-! DEFINITION. The tokens of the run-length decoder (spec 41, R123 to R128). -/

namespace Sys2Proof.Machine

/-- The head of every token's meaning: the core is in the token loop, the token's guard on `remaining` holds (R74), and
the bytes the token reads are inside the plane's payload, which is R123's `need`; else CorruptRunLength. -/
def inTokenLoop (s : State) (guard : Nat → Bool) (need : Nat)
    (run : List Byte → Work → PlaneId → Answer) : Answer :=
  match s.activity with
  | .running input w (.tokens i) =>
    if guard w.remaining then
      if w.p + need ≤ w.stop then run input w i
      else .next (raiseError .corruptRunLength s)
    else .refused .notSelected
  | _ => .refused .notSelected

/-- `n` copies of the byte just read go to the output index; `o` and `remaining` move by `n` (R124 to R127). -/
def emitRun (s : State) (input : List Byte) (w : Work) (i : PlaneId) (n : Nat) : Answer :=
  answerOf (do
    let a ← writeAt (.plane i) (planeGet s.ctx.plane i) w.o (List.replicate n w.value)
    return withActivity (withContext s (setPlane s.ctx i a))
      (.running input { w with o := w.o + n, remaining := w.remaining - n } (.tokens i)))

/-- A run of `n` bytes, refused as corrupt when it is longer than `remaining`. The test is on integers and comes before
the subtraction (R126, R127). -/
def emitChecked (s : State) (input : List Byte) (w : Work) (i : PlaneId) (n : Nat) : Answer :=
  if n > w.remaining then .next (raiseError .corruptRunLength s)
  else emitRun s input w i n

/-- RLE.LIT5 (R124): the literal at `remaining == 5`; the next byte is not examined. -/
def execLit5 (v : Byte) (s : State) : Answer :=
  inTokenLoop s (fun remaining => remaining == 5) 1 fun input w i =>
    emitRun s input { w with p := w.p + 1, value := v } i 1

/-- RLE.LIT (R125): one literal byte. The byte after it has been peeked, so it must be in the payload too, and is not
consumed. -/
def execLit (v : Byte) (s : State) : Answer :=
  inTokenLoop s (fun remaining => decide (6 ≤ remaining)) 2 fun input w i =>
    emitRun s input { w with p := w.p + 1, value := v } i 1

/-- RLE.RUNS (R126): a run of `len + 2` bytes. Length byte 0xFF is no short run (R76). -/
def execRuns (v len : Byte) (s : State) : Answer :=
  inTokenLoop s (fun remaining => decide (6 ≤ remaining) && len != 0xFF#8) 3 fun input w i =>
    emitChecked s input { w with p := w.p + 3, value := v } i (len.toNat + 2)

/-- RLE.RUNL (R127): a run of `n` bytes; 0 is allowed and emits nothing. -/
def execRunl (v : Byte) (n : U32) (s : State) : Answer :=
  inTokenLoop s (fun remaining => decide (6 ≤ remaining)) 7 fun input w i =>
    emitChecked s input { w with p := w.p + 7, value := v } i n.toNat

/-- The checks of R128, in its order: `remaining` is 4, the four bytes are in the payload, and under STRICT_TRAILER they
are its last. -/
def trailerFits (strict : Bool) (w : Work) : Bool :=
  decide (w.remaining = 4) && decide (w.p + 4 ≤ w.stop) && (!strict || decide (w.p + 4 = w.stop))

/-- RLE.TRAIL (R128): the four bytes end the plane, and the core moves past it. -/
def execTrail (t u w z : Byte) (s : State) : Answer :=
  inTokenLoop s (fun remaining => decide (remaining ≤ 4)) 0 fun input work i =>
    if trailerFits s.params.strictTrailer work then
      answerOf (do
        let a ← writeAt (.plane i) (planeGet s.ctx.plane i) work.o [t, u, w, z]
        return withActivity (withContext s (setPlane s.ctx i a))
          (.running input { work with o := work.o + 4, remaining := 0, p := work.p + 4 } (stageAfterPlane i)))
    else .next (raiseError .corruptRunLength s)

end Sys2Proof.Machine
end

