-- ==== Sys2Proof/Machine/Dispatch.lean ====
section
/-! DEFINITION. One arm per instruction. -/

namespace Sys2Proof.Machine

/-- The meaning of an instruction in a state. -/
def exec (i : Instr) (s : State) : Host.Outcome State Fault Refusal :=
  match i with
  | .hdr a b c d l sub x0 x1 => Sys2Proof.Machine.execHdr a b c d l sub x0 x1 s
  | .planeFill => Sys2Proof.Machine.execPlaneFill s
  | .planeRle p => Sys2Proof.Machine.execPlaneRle p s
  | .planeRaw p => Sys2Proof.Machine.execPlaneRaw p s
  | .lit5 v => Sys2Proof.Machine.execLit5 v s
  | .lit v => Sys2Proof.Machine.execLit v s
  | .runs v len => Sys2Proof.Machine.execRuns v len s
  | .runl v n => Sys2Proof.Machine.execRunl v n s
  | .trail t u w z => Sys2Proof.Machine.execTrail t u w z s
  | .clx c => Sys2Proof.Machine.execClx c s
  | .ups c w2 => Sys2Proof.Machine.execUps c w2 s
  | .csc => Sys2Proof.Machine.execCsc s
  | .newContext => Sys2Proof.Machine.execNewContext s
  | .setDimensions w h => Sys2Proof.Machine.execSetDimensions w h s
  | .processMessage input => Sys2Proof.Machine.execProcessMessage input s
  | .reserved => Sys2Proof.Machine.execReserved s

end Sys2Proof.Machine
end

