-- ==== Sys2Proof/Machine/Fetch.lean ====
section
/-! DEFINITION. Where a unit of the opcode table has to stand so that the next step takes it. -/

namespace Sys2Proof.Machine

/-- The state `s` with the core standing at unit `u`: a command first in the host's list of an idle core; a header as the
message of a command that has reached its header; a token as the payload of plane Y at the cursor, with the plane
allocated. -/
def placeUnit (s : State) : FetchUnit → State
  | .command c => { s with activity := .idle, pending := c :: s.pending }
  | .header bs => { s with activity := .running bs (unsetWork s.draws) .header }
  | .token remaining bs =>
    { s with
      ctx := setPlane s.ctx .y (freeBytes s.draws 0 260)
      activity := .running bs
        { unsetWork s.draws with p := 0, stop := bs.length, o := 260 - remaining, remaining := remaining } (.tokens .y) }
  | .plane i count target =>
    { s with
      ctx := { s.ctx with
        planeByteCount := planeSet s.ctx.planeByteCount i (BitVec.ofNat 32 count)
        planeTargetSize := planeSet s.ctx.planeTargetSize i target }
      activity := .running [] (unsetWork s.draws) (.plane i) }
  | .clx c => { s with activity := .running [] (unsetWork s.draws) (.clx c) }
  | .ups c _ => { s with activity := .running [] (unsetWork s.draws) (.ups c) }
  | .csc => { s with activity := .running [] (unsetWork s.draws) .csc }

end Sys2Proof.Machine
end

