-- ==== Sys2Proof/Machine/Step.lean ====
section
/-! DEFINITION. One step: fetch the unit the core stands at, decode it, execute it. -/

namespace Sys2Proof.Machine

/-- One step of the core. A unit that decodes to no instruction is a read past its bound and raises its error (R103,
R123). -/
def step (s : State) : Host.Outcome State Fault Refusal :=
  match fetch s with
  | none => idleStep s
  | some u =>
    match decode s.params.byteOrder u with
    | .ok i => exec i (afterFetch s)
    | .error r => .next (raiseError (rejectError r) s)

/-- `s` with the instruction of an opcode-table word where the next step takes it. -/
def State.withFetchWord (s : State) (nbits w : Nat) : State :=
  match tableUnit nbits w with
  | none => s
  | some u => placeUnit s u

end Sys2Proof.Machine
end

