-- ==== Sys2Proof/Machine/Reference.lean ====
section
/-! DEFINITION. What a whole message decodes to, said at once: a function of the message, the dimensions, the parameters
including the environment's answer, with no stages, cursors or loop indices. Statements compare runs of the machine with it. -/

namespace Sys2Proof.Machine

/-- The plane a token stream `bs` stands for when `remaining` bytes are still to come, or none where the stream is corrupt
(R123 to R129). The first argument bounds the number of tokens; the length of the stream is enough. -/
def refTokens (strict : Bool) (bo : ByteOrder) : Nat → Nat → List Byte → Option (List Byte)
  | 0, remaining, bs =>
    if remaining = 4 then
      match bs with
      | [t, u, w, z] => some [t, u, w, z]
      | t :: u :: w :: z :: _ => if strict then none else some [t, u, w, z]
      | _ => none
    else none
  | fuel + 1, remaining, bs =>
    if remaining ≤ 4 then refTokens strict bo 0 remaining bs
    else
      match bs with
      | [] => none
      | v :: rest =>
        if remaining = 5 then (refTokens strict bo fuel 4 rest).map (fun l => v :: l)
        else
          match rest with
          | [] => none
          | m :: afterMarker =>
            if m ≠ v then (refTokens strict bo fuel (remaining - 1) rest).map (fun l => v :: l)
            else
              match afterMarker with
              | [] => none
              | len :: afterLength =>
                if len ≠ 0xFF#8 then
                  if len.toNat + 2 > remaining then none
                  else (refTokens strict bo fuel (remaining - (len.toNat + 2)) afterLength).map
                    (fun l => List.replicate (len.toNat + 2) v ++ l)
                else
                  match afterLength with
                  | n0 :: n1 :: n2 :: n3 :: rest' =>
                    let n := (assemble32 bo n0 n1 n2 n3).toNat
                    if n > remaining then none
                    else (refTokens strict bo fuel (remaining - n) rest').map (fun l => List.replicate n v ++ l)
                  | _ => none

/-- The plane that the payload `bs` of `count` bytes stands for (R120 to R123). -/
def refPlane (strict : Bool) (bo : ByteOrder) (i : PlaneId) (target : Nat) (bs : List Byte) : Option (List Byte) :=
  if i = .alpha ∧ bs.length = 0 then some (List.replicate target 0xFF#8)
  else if bs.length < target then refTokens strict bo bs.length target bs
  else some (bs.take target)

/-- The upsampled array, by the closed form of R150: sample `(x, y)` is input sample `(x div 2, y div 2)`. -/
def refUpsample (a : List Sample) (w2 : Nat) : List Sample :=
  (List.range (4 * a.length)).map fun n => a.getD (n / (2 * w2) / 2 * w2 + n % (2 * w2) / 2) 0

/-- The source index of pixel `i`, by the closed form of R161. -/
def refIndex (sub : Bool) (w i : Nat) : Nat := i / w * (w + rowPad sub w) + i % w

/-- The bitmap, pixel by pixel (R160 to R164). -/
def refBitmap (sub : Bool) (w h : Nat) (y : List Byte) (co cg : List Sample) (alpha : List Byte) : List Byte :=
  (List.range (w * h)).flatMap fun i =>
    let j := refIndex sub w i
    pixelBytes (y.getD j 0) (co.getD j 0) (cg.getD j 0) (alpha.getD i 0)

/-- The context a successful PROCESS_MESSAGE of `input` leaves, or the error it raises, in the order of R173. -/
def refMessage (P : Params) (width height : U32) (input : List Byte) :
    Except ErrorKind Context :=
  if input.length < 20 then .error .malformedHeader
  else
    let counts : PerPlane U32 := ⟨memRead32 P.byteOrder input 0, memRead32 P.byteOrder input 4,
      memRead32 P.byteOrder input 8, memRead32 P.byteOrder input 12⟩
    let level := memRead8 input 16
    let sub := decide (memRead8 input 17 ≠ 0)
    let w := width.toNat
    let h := height.toNat
    let t := targetSizes sub w h
    let payload (i : PlaneId) : List Byte :=
      (input.drop (planeGet (planeBases counts) i)).take (planeGet counts i).toNat
    let decoded (i : PlaneId) := refPlane P.strictTrailer P.byteOrder i (planeGet t i) (payload i)
    if 20 + payloadTotal counts > input.length then .error .malformedHeader
    else if w = 0 ∨ h = 0 ∨ (checkedSizes sub w h).any (fun n => decide (n > P.maxSize)) then
      .error .unsupportedDimensions
    else if canAllocate P (neededSizes sub w h) = false then .error .allocationFailure
    else
      match decoded .y, decoded .co, decoded .cg, decoded .alpha with
      | some y, some co, some cg, some alpha =>
        let up (l : List Byte) : List Sample :=
          if sub then refUpsample (l.map (expandByte level)) (pad8 w / 2) else l.map (expandByte level)
        .ok {
          width := width
          height := height
          colorLossLevel := level
          subsampling := sub
          planeByteCount := counts
          planeTargetSize := t
          plane := ⟨y, co, cg, alpha⟩
          co := up co
          cg := up cg
          out := refBitmap sub w h y (up co) (up cg) alpha
          status := .ok
          outputValid := true
          buffersValid := true }
      | _, _, _, _ => .error .corruptRunLength

end Sys2Proof.Machine
end

