-- ==== Sys2Proof/Safety.lean ====
section
/-! DEFINITION. What a good state is, in the terms the statements use: the array lengths and ranges the rules give while
the fields are valid, and what holds at each stage of a running command. -/

namespace Sys2Proof.Machine

/-- The range of every chroma sample (R31, R140). -/
abbrev sampleInRange (x : Sample) : Prop := -256 ≤ x.toInt ∧ x.toInt ≤ 255

/-- Every sample of an array is in that range, as a check over the array. -/
abbrev samplesInRange (a : List Sample) : Prop := a.all (fun x => decide (sampleInRange x)) = true

/-- A condition on every plane. -/
abbrev allPlanes (good : PlaneId → Prop) : Prop := good .y ∧ good .co ∧ good .cg ∧ good .alpha

/-- The buffers have the sizes of the current dimensions (R30, R32, R105, R106). -/
abbrev buffersSized (c : Context) : Prop :=
  c.width ≠ 0 ∧ c.height ≠ 0 ∧
  c.planeTargetSize = targetSizes c.subsampling c.width.toNat c.height.toNat ∧
  allPlanes (fun i => (planeGet c.plane i).length = planeGet c.planeTargetSize i) ∧
  c.out.length = c.width.toNat * c.height.toNat * 4

/-- CO or CG as CLX leaves it: one sample for each byte of its plane (R31, R140). -/
abbrev chromaExpanded (c : Context) (ch : Chroma) : Prop :=
  (chromaGet c ch).length = planeGet c.planeTargetSize (chromaPlane ch) ∧ samplesInRange (chromaGet c ch)

/-- CO or CG as CSC reads it: at full resolution (R31, R151). -/
abbrev chromaFull (c : Context) (ch : Chroma) : Prop :=
  (chromaGet c ch).length = chromaSamples c.subsampling c.width.toNat c.height.toNat ∧ samplesInRange (chromaGet c ch)

/-- The form of the arrays while BUFFERS_VALID is 1 (R30, R31, R32). -/
abbrev buffersComplete (c : Context) : Prop :=
  buffersSized c ∧ chromaFull c .co ∧ chromaFull c .cg

/-- The payload of every plane lies inside IN, and the bases are those of R104. -/
abbrev planesLocated (c : Context) (input : List Byte) (w : Work) : Prop :=
  w.base = planeBases c.planeByteCount ∧ 20 + payloadTotal c.planeByteCount ≤ input.length

/-- The cursor of the token loop: inside the plane's payload, with `o + remaining = T` (R123). -/
abbrev cursorInPlane (c : Context) (w : Work) (i : PlaneId) : Prop :=
  w.stop = planeGet w.base i + (planeGet c.planeByteCount i).toNat ∧
  planeGet w.base i ≤ w.p ∧ w.p ≤ w.stop ∧
  w.o + w.remaining = planeGet c.planeTargetSize i ∧
  selectsRle c i = true

/-- What holds at each stage of a running command (R59, R102). -/
def stageInv (c : Context) (input : List Byte) (w : Work) : Stage → Prop
  | .header => True
  | .plane _ => buffersSized c ∧ planesLocated c input w
  | .tokens i => buffersSized c ∧ planesLocated c input w ∧ cursorInPlane c w i
  | .clx .co => buffersSized c
  | .clx .cg => buffersSized c ∧ chromaExpanded c .co
  | .ups .co => buffersSized c ∧ c.subsampling = true ∧ chromaExpanded c .co ∧ chromaExpanded c .cg
  | .ups .cg => buffersSized c ∧ c.subsampling = true ∧ chromaFull c .co ∧ chromaExpanded c .cg
  | .csc => buffersComplete c

/-- What holds of the activity: while a command runs both valid bits are 0 (R102) and the stage's condition holds. -/
def activityInv (s : State) : Prop :=
  match s.activity with
  | .uncreated => True
  | .idle => True
  | .running input w stage =>
    s.ctx.outputValid = false ∧ s.ctx.buffersValid = false ∧ stageInv s.ctx input w stage

/-- `Memory.wf`: the form of the arrays. Every array is a list of exactly its length, so equal arrays are equal data; while
BUFFERS_VALID is 1 the lengths and ranges are those of R30, R31 and R32. -/
abbrev Memory.wf (c : Context) : Prop := c.buffersValid = true → buffersComplete c

/-- The form can be computed. -/
def Memory.wfCheck (c : Context) : Bool := decide (Memory.wf c)

/-- The invariant of the machine. -/
structure Inv (s : State) : Prop where
  /-- Every target size is at most MAX_SIZE (R29). -/
  sizesBounded : allPlanes fun i => planeGet s.ctx.planeTargetSize i ≤ s.params.maxSize
  /-- The two valid bits are equal (R34, R35, R101, R102, R108, R172). -/
  validTogether : s.ctx.outputValid = s.ctx.buffersValid
  /-- While OUTPUT_VALID is 1 the last message succeeded (R34, R195). -/
  validOk : s.ctx.outputValid = true → s.ctx.status = .ok
  /-- The arrays have their form. -/
  memory : Memory.wf s.ctx
  /-- The stage of a running command has what it needs. -/
  running : activityInv s

/-- The core is between commands (R186). -/
abbrev isIdle (s : State) : Prop := s.activity = .idle

/-- The guard of a unit's row in the opcode table: the core stands at the unit's stage and the row's condition on the
context or on `remaining` holds (R73, R74, R85). A host command has no such guard. -/
def standsAt (i : Instr) (s : State) : Bool :=
  match i, s.activity with
  | .hdr _ _ _ _ _ _ _ _, .running _ _ .header => true
  | .planeFill, .running _ _ (.plane j) => selectsFill s.ctx j
  | .planeRle i, .running _ _ (.plane j) => decide (j = i) && selectsRle s.ctx i
  | .planeRaw i, .running _ _ (.plane j) => decide (j = i) && selectsRaw s.ctx i
  | .lit5 _, .running _ w (.tokens _) => w.remaining == 5
  | .lit _, .running _ w (.tokens _) => decide (6 ≤ w.remaining)
  | .runs _ len, .running _ w (.tokens _) => decide (6 ≤ w.remaining) && len != 0xFF#8
  | .runl _ _, .running _ w (.tokens _) => decide (6 ≤ w.remaining)
  | .trail _ _ _ _, .running _ w (.tokens _) => decide (w.remaining ≤ 4)
  | .clx c, .running _ _ (.clx c') => decide (c' = c)
  | .ups c _, .running _ _ (.ups c') => decide (c' = c)
  | .csc, .running _ _ .csc => true
  | _, _ => false

/-- How many bytes a token stores at the output index (R124 to R128); no other instruction is a token. -/
def tokenStores : Instr → Option Nat
  | .lit5 _ => some 1
  | .lit _ => some 1
  | .runs _ len => some (len.toNat + 2)
  | .runl _ n => some n.toNat
  | .trail _ _ _ _ => some 4
  | .hdr _ _ _ _ _ _ _ _ => none
  | .planeFill => none
  | .planeRle _ => none
  | .planeRaw _ => none
  | .clx _ => none
  | .ups _ _ => none
  | .csc => none
  | .newContext => none
  | .setDimensions _ _ => none
  | .processMessage _ => none
  | .reserved => none

/-- The commands the host can issue, as against the units of a running PROCESS_MESSAGE (R70). -/
def isCommand : Instr → Bool
  | .newContext => true
  | .setDimensions _ _ => true
  | .processMessage _ => true
  | .reserved => true
  | .hdr _ _ _ _ _ _ _ _ => false
  | .planeFill => false
  | .planeRle _ => false
  | .planeRaw _ => false
  | .lit5 _ => false
  | .lit _ => false
  | .runs _ _ => false
  | .runl _ _ => false
  | .trail _ _ _ _ => false
  | .clx _ => false
  | .ups _ _ => false
  | .csc => false

end Sys2Proof.Machine
end

