-- ==== Sys2Proof/Certificates/Slice0/Obligations.lean ====
section
/-! DEFINITION. The statements for the provers. Each docstring names the rule of spec/ it formalises. -/

open Sys2Proof Sys2Proof.Machine

/-! ## Reset and the commands -/

/-- R39: the reset table, whose values are the spec's decision D7. The rest is the model's choice: that the core right after
reset is idle (log entry 11), that no command is pending (log entry 6), and that the parameters of R6 have the values R6 gives
them, with `can_allocate` open (log entries 2, 3 and 4). -/
def Obligations.ResetIsTheEmptyContext : Prop :=
  State.reset.ctx =
    { width := 0, height := 0, colorLossLevel := 0, subsampling := false,
      planeByteCount := ⟨0, 0, 0, 0⟩, planeTargetSize := ⟨0, 0, 0, 0⟩, plane := ⟨[], [], [], []⟩,
      co := [], cg := [], out := [], status := .none, outputValid := false, buffersValid := false } ∧
  State.reset.activity = .idle ∧ State.reset.pending = [] ∧
  State.reset.params = { byteOrder := .le, maxSize := 2 ^ 32 - 1, allocation := .unknown, strictTrailer := true }

/-- R100, R190: NEW_CONTEXT puts every field to its reset value whenever no command runs, on a new instance too. The host's
list, the parameters and the draw counter are no fields of the context and stay (log entry 10). -/
def Obligations.NewContextResetsEveryField : Prop :=
  ∀ s : State, (s.activity = .idle ∨ s.activity = .uncreated) →
    exec .newContext s = .next { s with ctx := State.reset.ctx, activity := .idle }

/-- R101: SET_DIMENSIONS writes WIDTH and HEIGHT, clears both valid bits and leaves STATUS; every `w` and `h` is accepted, 0
too. On a context no message has completed on since NEW_CONTEXT (STATUS is NONE) the header fields keep their values (R21;
R35 excepts the reset values; that STATUS tells is deduced, log entry 7). OUT and the buffers are unspecified afterwards
(R197), so nothing is said of them. -/
def Obligations.SetDimensionsWritesTheSizes : Prop :=
  ∀ (w h : U32) (s : State), s.activity = .idle →
    ∃ t, exec (.setDimensions w h) s = .next t ∧
      t.ctx.width = w ∧ t.ctx.height = h ∧ t.ctx.outputValid = false ∧ t.ctx.buffersValid = false ∧
      t.ctx.status = s.ctx.status ∧
      (s.ctx.status = .none →
        t.ctx.colorLossLevel = s.ctx.colorLossLevel ∧ t.ctx.subsampling = s.ctx.subsampling ∧
        t.ctx.planeByteCount = s.ctx.planeByteCount ∧ t.ctx.planeTargetSize = s.ctx.planeTargetSize) ∧
      t.activity = .idle ∧ t.pending = s.pending ∧ t.params = s.params

/-- R102, first line: PROCESS_MESSAGE clears both valid bits, takes the message and starts at its header; nothing else of
the context changes. That the command stops here and goes on in later steps is the model's choice (log entry 5). -/
def Obligations.ProcessMessageStartsAtTheHeader : Prop :=
  ∀ (input : List Byte) (s : State), s.activity = .idle →
    ∃ t w, exec (.processMessage input) s = .next t ∧
      t.activity = .running input w .header ∧
      t.ctx = { s.ctx with outputValid := false, buffersValid := false } ∧
      t.pending = s.pending ∧ t.params = s.params

/-- R82: command code 11 is refused, in every state. That it is an instruction at all is the model's choice (log entry 12). -/
def Obligations.ReservedCommandIsRefused : Prop :=
  (∀ (bo : ByteOrder) (w h : U32) (input : List Byte), decode bo (.command ⟨3, w, h, input⟩) = .ok .reserved) ∧
  ∀ s : State, exec .reserved s = .refused .reservedCommand

/-- R190 and R193: before the first NEW_CONTEXT no other command has a step, and while a command runs no command has one.
The refusals and the instance not yet created are said in log entries 11 and 16, the host's list in log entry 6. -/
def Obligations.CommandsAreRefusedOutOfTurn : Prop :=
  (∀ (s : State) (w h : U32) (input : List Byte), s.activity = .uncreated →
    exec (.setDimensions w h) s = .refused .noContext ∧
    exec (.processMessage input) s = .refused .noContext ∧
    (s.pending = [] → step s = .refused .noContext)) ∧
  (∀ (s : State) (m : List Byte) (work : Work) (stage : Stage) (w h : U32) (input : List Byte),
    s.activity = .running m work stage →
    exec .newContext s = .refused .commandRunning ∧
    exec (.setDimensions w h) s = .refused .commandRunning ∧
    exec (.processMessage input) s = .refused .commandRunning)

/-- The model's choice (log entry 14): a unit of PROCESS_MESSAGE executed where the guard of its row in the opcode table
does not hold is refused. -/
def Obligations.UnitsOutOfPlaceAreRefused : Prop :=
  ∀ (i : Instr) (s : State), isCommand i = false → standsAt i s = false → exec i s = .refused .notSelected

/-! ## The header -/

/-- R9: `pad8(n)` is the least multiple of 8 that is at least `n`, and `pad2(n)` the least multiple of 2. -/
def Obligations.PaddingIsTheLeastMultiple : Prop :=
  ∀ n : Nat, (8 ∣ pad8 n ∧ n ≤ pad8 n ∧ ∀ m, 8 ∣ m → n ≤ m → pad8 n ≤ m) ∧
    (2 ∣ pad2 n ∧ n ≤ pad2 n ∧ ∀ m, 2 ∣ m → n ≤ m → pad2 n ≤ m)

/-- R103, R104, R106, R107: when the payload fits, the dimensions are supported and the environment grants the buffers, the
header unit writes the header fields, the bases, the target sizes and the buffers, and goes on to plane Y. The size limit is
decision D8 and the request to the environment decision D9, both taken as the machine's parameters (log entries 3 and 4); that
one step does all of it is the model's choice (log entry 5). -/
def Obligations.HeaderPreparesTheBuffers : Prop :=
  ∀ (a b c d : U32) (l sub x0 x1 : Byte) (s : State) (input : List Byte) (w : Work),
    s.activity = .running input w .header →
    20 + (a.toNat + b.toNat + c.toNat + d.toNat) ≤ input.length →
    s.ctx.width ≠ 0 → s.ctx.height ≠ 0 →
    (∀ n ∈ checkedSizes (decide (sub ≠ 0)) s.ctx.width.toNat s.ctx.height.toNat, n ≤ s.params.maxSize) →
    canAllocate s.params (neededSizes (decide (sub ≠ 0)) s.ctx.width.toNat s.ctx.height.toNat) = true →
    ∃ t, exec (.hdr a b c d l sub x0 x1) s = .next t ∧
      t.activity = .running input
        { w with base := ⟨20, 20 + a.toNat, 20 + a.toNat + b.toNat, 20 + a.toNat + b.toNat + c.toNat⟩ } (.plane .y) ∧
      t.ctx = { s.ctx with
        planeByteCount := ⟨a, b, c, d⟩
        colorLossLevel := l
        subsampling := decide (sub ≠ 0)
        planeTargetSize := t.ctx.planeTargetSize
        plane := t.ctx.plane
        co := t.ctx.co
        cg := t.ctx.cg
        out := List.replicate (s.ctx.width.toNat * s.ctx.height.toNat * 4) 0 } ∧
      t.ctx.planeTargetSize = (if sub ≠ 0 then
          ⟨pad8 s.ctx.width.toNat * s.ctx.height.toNat,
            pad8 s.ctx.width.toNat / 2 * (pad2 s.ctx.height.toNat / 2),
            pad8 s.ctx.width.toNat / 2 * (pad2 s.ctx.height.toNat / 2),
            s.ctx.width.toNat * s.ctx.height.toNat⟩
        else
          ⟨s.ctx.width.toNat * s.ctx.height.toNat, s.ctx.width.toNat * s.ctx.height.toNat,
            s.ctx.width.toNat * s.ctx.height.toNat, s.ctx.width.toNat * s.ctx.height.toNat⟩) ∧
      (∀ i, (planeGet t.ctx.plane i).length = planeGet t.ctx.planeTargetSize i) ∧
      t.ctx.co.length = t.ctx.planeTargetSize.co ∧ t.ctx.cg.length = t.ctx.planeTargetSize.cg ∧
      t.pending = s.pending ∧ t.params = s.params

/-- R173, items 1 to 4 (decision D10): the first failing check of the header unit decides the error. That the unit makes all
of these checks is the model's choice (log entry 5). -/
def Obligations.HeaderErrorsComeInOrder : Prop :=
  ∀ (a b c d : U32) (l sub x0 x1 : Byte) (s : State) (input : List Byte) (w : Work),
    s.activity = .running input w .header →
    (20 + (a.toNat + b.toNat + c.toNat + d.toNat) > input.length →
      exec (.hdr a b c d l sub x0 x1) s = .next (raiseError .malformedHeader s)) ∧
    (20 + (a.toNat + b.toNat + c.toNat + d.toNat) ≤ input.length →
      (s.ctx.width = 0 ∨ s.ctx.height = 0 ∨
        ∃ n ∈ checkedSizes (decide (sub ≠ 0)) s.ctx.width.toNat s.ctx.height.toNat, n > s.params.maxSize) →
      exec (.hdr a b c d l sub x0 x1) s = .next (raiseError .unsupportedDimensions s)) ∧
    (20 + (a.toNat + b.toNat + c.toNat + d.toNat) ≤ input.length →
      s.ctx.width ≠ 0 → s.ctx.height ≠ 0 →
      (∀ n ∈ checkedSizes (decide (sub ≠ 0)) s.ctx.width.toNat s.ctx.height.toNat, n ≤ s.params.maxSize) →
      canAllocate s.params (neededSizes (decide (sub ≠ 0)) s.ctx.width.toNat s.ctx.height.toNat) = false →
      exec (.hdr a b c d l sub x0 x1) s = .next (raiseError .allocationFailure s))

/-! ## Errors -/

/-- R172, R170: after an error STATUS records the kind under its code, both valid bits are 0, WIDTH and HEIGHT keep their
values, and the core is idle. The other fields are unspecified, so nothing is said of them. -/
def Obligations.ErrorEndsTheCommand : Prop :=
  (∀ (k : ErrorKind) (s : State),
    (raiseError k s).ctx.status = errorStatus k ∧
    (raiseError k s).ctx.outputValid = false ∧
    (raiseError k s).ctx.buffersValid = false ∧
    (raiseError k s).ctx.width = s.ctx.width ∧
    (raiseError k s).ctx.height = s.ctx.height ∧
    (raiseError k s).activity = .idle ∧
    (raiseError k s).pending = s.pending ∧
    (raiseError k s).params = s.params) ∧
  statusCode (errorStatus .malformedHeader) = 2 ∧ statusCode (errorStatus .corruptRunLength) = 3 ∧
  statusCode (errorStatus .unsupportedDimensions) = 4 ∧ statusCode (errorStatus .allocationFailure) = 5

/-- R103, R123, R127, R128: a unit that is cut off by its bound (decision D11) raises its error: the header MalformedHeader, a
token CorruptRunLength. That such a unit decodes to no instruction is deduced (log entry 20). -/
def Obligations.TruncatedUnitRaisesItsError : Prop :=
  ∀ (s : State) (input : List Byte) (w : Work),
    (s.activity = .running input w .header → input.length < 20 →
      step s = .next (raiseError .malformedHeader s)) ∧
    (∀ (i : PlaneId) (r : Reject), s.activity = .running input w (.tokens i) →
      decodeToken s.params.byteOrder w.remaining ((input.drop w.p).take (w.stop - w.p)) = .error r →
      step s = .next (raiseError .corruptRunLength s))

/-! ## The plane modes -/

/-- R121: PLANE.FILL stores `T` bytes 0xFF in the Alpha plane, reads no input byte and changes nothing else. -/
def Obligations.FillMakesAlphaOpaque : Prop :=
  ∀ (s : State) (input : List Byte) (w : Work),
    s.activity = .running input w (.plane .alpha) → s.ctx.planeByteCount.alpha = 0 →
    s.ctx.plane.alpha.length = s.ctx.planeTargetSize.alpha →
    exec .planeFill s = .next { s with
      ctx := { s.ctx with
        plane := { s.ctx.plane with alpha := List.replicate s.ctx.planeTargetSize.alpha 0xFF#8 } }
      activity := .running input w (.clx .co) }

/-- R122: PLANE.RAW copies the first `T` bytes of the plane's payload and changes nothing else. -/
def Obligations.RawCopiesThePayload : Prop :=
  ∀ (i : PlaneId) (s : State) (input : List Byte) (w : Work),
    s.activity = .running input w (.plane i) →
    (i = .alpha → s.ctx.planeByteCount.alpha ≠ 0) →
    planeGet s.ctx.planeTargetSize i ≤ (planeGet s.ctx.planeByteCount i).toNat →
    planeGet w.base i + planeGet s.ctx.planeTargetSize i ≤ input.length →
    (planeGet s.ctx.plane i).length = planeGet s.ctx.planeTargetSize i →
    ∃ t, exec (.planeRaw i) s = .next t ∧
      t = { s with
        ctx := { s.ctx with plane := planeSet s.ctx.plane i (planeGet t.ctx.plane i) }
        activity := .running input w (match i with
          | .y => .plane .co | .co => .plane .cg | .cg => .plane .alpha | .alpha => .clx .co) } ∧
      (planeGet t.ctx.plane i).length = planeGet s.ctx.planeTargetSize i ∧
      ∀ k < planeGet s.ctx.planeTargetSize i, (planeGet t.ctx.plane i)[k]? = input[planeGet w.base i + k]?

/-- R123, first line: PLANE.RLE sets the working registers of the token loop, stores no byte and enters the loop. That
this is a step of its own is the model's choice (log entry 5). -/
def Obligations.RleEntersTheTokenLoop : Prop :=
  ∀ (i : PlaneId) (s : State) (input : List Byte) (w : Work),
    s.activity = .running input w (.plane i) →
    (i = .alpha → s.ctx.planeByteCount.alpha ≠ 0) →
    (planeGet s.ctx.planeByteCount i).toNat < planeGet s.ctx.planeTargetSize i →
    exec (.planeRle i) s = .next { s with
      activity := .running input
        { w with
          p := planeGet w.base i
          stop := planeGet w.base i + (planeGet s.ctx.planeByteCount i).toNat
          o := 0
          remaining := planeGet s.ctx.planeTargetSize i } (.tokens i) }

/-! ## The tokens -/

/-- R124 and R125: LIT5 and LIT store the byte just read at the output index and move by one. The byte LIT has peeked at is
not consumed, but must be in the payload: a read or a peek past it raises CorruptRunLength (R123, decision D11), and the
token's meaning checks that at once (log entry 20). -/
def Obligations.LiteralsEmitOneByte : Prop :=
  ∀ (v old : Byte) (s : State) (input : List Byte) (w : Work) (i : PlaneId) (before after : List Byte),
    s.activity = .running input w (.tokens i) →
    planeGet s.ctx.plane i = before ++ old :: after → before.length = w.o →
    (w.remaining = 5 → w.p + 1 ≤ w.stop →
      exec (.lit5 v) s = .next { s with
        ctx := { s.ctx with plane := planeSet s.ctx.plane i (before ++ v :: after) }
        activity := .running input { w with p := w.p + 1, value := v, o := w.o + 1, remaining := 4 } (.tokens i) }) ∧
    (6 ≤ w.remaining → w.p + 2 ≤ w.stop →
      exec (.lit v) s = .next { s with
        ctx := { s.ctx with plane := planeSet s.ctx.plane i (before ++ v :: after) }
        activity := .running input { w with p := w.p + 1, value := v, o := w.o + 1, remaining := w.remaining - 1 }
          (.tokens i) }) ∧
    (w.remaining = 5 → w.stop < w.p + 1 →
      exec (.lit5 v) s = .next (raiseError .corruptRunLength s)) ∧
    (6 ≤ w.remaining → w.stop < w.p + 2 →
      exec (.lit v) s = .next (raiseError .corruptRunLength s))

/-- R126: RUNS stores `L + 2` copies of the byte, or raises CorruptRunLength when that is more than `remaining`, compared as
integers (decision D24). When the payload ends before the length byte, the read of it raises CorruptRunLength: that is `need`
of R123, bounded by the plane's own payload (decision D11), which the token's meaning checks at once (log entry 20). -/
def Obligations.ShortRunEmitsLengthPlusTwo : Prop :=
  ∀ (v len : Byte) (s : State) (input : List Byte) (w : Work) (i : PlaneId),
    s.activity = .running input w (.tokens i) → len ≠ 0xFF#8 → 6 ≤ w.remaining →
    (∀ before old after, w.p + 3 ≤ w.stop → planeGet s.ctx.plane i = before ++ old ++ after → before.length = w.o →
      old.length = len.toNat + 2 → len.toNat + 2 ≤ w.remaining →
      exec (.runs v len) s = .next { s with
        ctx := { s.ctx with
          plane := planeSet s.ctx.plane i (before ++ List.replicate (len.toNat + 2) v ++ after) }
        activity := .running input
          { w with
            p := w.p + 3
            value := v
            o := w.o + (len.toNat + 2)
            remaining := w.remaining - (len.toNat + 2) } (.tokens i) }) ∧
    (w.p + 3 ≤ w.stop → len.toNat + 2 > w.remaining →
      exec (.runs v len) s = .next (raiseError .corruptRunLength s)) ∧
    (w.stop < w.p + 3 → exec (.runs v len) s = .next (raiseError .corruptRunLength s))

/-- R127: RUNL stores `N` copies of the byte, none for `N = 0` (derived there), or raises CorruptRunLength when `N` is more
than `remaining`, compared as integers (decision D24). When the payload ends before the 4 length bytes or before the bytes in
front of them, a read raises CorruptRunLength: that is `need` of R127 and R123, bounded by the plane's own payload (decision
D11), which the token's meaning checks at once (log entry 20). -/
def Obligations.LongRunEmitsItsLength : Prop :=
  ∀ (v : Byte) (n : U32) (s : State) (input : List Byte) (w : Work) (i : PlaneId),
    s.activity = .running input w (.tokens i) → 6 ≤ w.remaining →
    (∀ before old after, w.p + 7 ≤ w.stop → planeGet s.ctx.plane i = before ++ old ++ after →
      before.length = w.o → old.length = n.toNat → n.toNat ≤ w.remaining →
      exec (.runl v n) s = .next { s with
        ctx := { s.ctx with plane := planeSet s.ctx.plane i (before ++ List.replicate n.toNat v ++ after) }
        activity := .running input
          { w with p := w.p + 7, value := v, o := w.o + n.toNat, remaining := w.remaining - n.toNat } (.tokens i) }) ∧
    (w.p + 7 ≤ w.stop → n.toNat > w.remaining →
      exec (.runl v n) s = .next (raiseError .corruptRunLength s)) ∧
    (w.stop < w.p + 7 → exec (.runl v n) s = .next (raiseError .corruptRunLength s))

/-- R128: when `remaining` is 4 and four bytes are left in the payload, which with STRICT_TRAILER (decision D12) are its last,
TRAIL stores them and the plane is done. When `remaining` is less, when fewer than four bytes are left, or with STRICT_TRAILER
when they do not end the payload, it raises CorruptRunLength. The payload is the plane's own (decision D11). -/
def Obligations.TrailerEndsThePlane : Prop :=
  ∀ (t u x z : Byte) (s : State) (input : List Byte) (w : Work) (i : PlaneId),
    s.activity = .running input w (.tokens i) →
    (∀ before old after, planeGet s.ctx.plane i = before ++ old ++ after → before.length = w.o → old.length = 4 →
      w.remaining = 4 → w.p + 4 ≤ w.stop → (s.params.strictTrailer = true → w.p + 4 = w.stop) →
      exec (.trail t u x z) s = .next { s with
        ctx := { s.ctx with plane := planeSet s.ctx.plane i (before ++ [t, u, x, z] ++ after) }
        activity := .running input { w with p := w.p + 4, o := w.o + 4, remaining := 0 } (match i with
          | .y => .plane .co | .co => .plane .cg | .cg => .plane .alpha | .alpha => .clx .co) }) ∧
    (w.remaining < 4 ∨ (w.remaining = 4 ∧ w.stop < w.p + 4) ∨
        (w.remaining = 4 ∧ s.params.strictTrailer = true ∧ w.p + 4 ≠ w.stop) →
      exec (.trail t u x z) s = .next (raiseError .corruptRunLength s))

/-- D12: with STRICT_TRAILER false, four bytes anywhere before the payload's end are the trailer, whatever follows them. -/
def Obligations.LooseTrailerIgnoresLaterBytes : Prop :=
  ∀ (t u x z : Byte) (s : State) (input : List Byte) (w : Work) (i : PlaneId) (before old after : List Byte),
    s.activity = .running input w (.tokens i) → s.params.strictTrailer = false →
    planeGet s.ctx.plane i = before ++ old ++ after → before.length = w.o → old.length = 4 →
    w.remaining = 4 → w.p + 4 ≤ w.stop →
    ∃ s', exec (.trail t u x z) s = .next s' ∧ planeGet s'.ctx.plane i = before ++ [t, u, x, z] ++ after

/-- R123 to R129: whatever bytes are at the cursor, a step of the token loop with fewer than 4 bytes remaining raises
CorruptRunLength. Where fewer than 4 payload bytes are left too, that is the error of the cut-off unit (log entry 20). -/
def Obligations.LoopExitBelowFourIsCorrupt : Prop :=
  ∀ (s : State) (input : List Byte) (w : Work) (i : PlaneId),
    s.activity = .running input w (.tokens i) → w.remaining < 4 →
    step s = .next (raiseError .corruptRunLength s)

/-- The frame of the five tokens: unless the command ends in an error, they change plane `i` only, in it only the bytes they
store, and of the working registers only `p`, `value`, `o` and `remaining`. -/
def Obligations.TokensStoreOnlyTheirBytes : Prop :=
  ∀ (tok : Instr) (n : Nat) (s t : State) (input : List Byte) (w : Work) (i : PlaneId),
    tokenStores tok = some n → s.activity = .running input w (.tokens i) →
    exec tok s = .next t → t.activity ≠ .idle →
    t.ctx = { s.ctx with plane := t.ctx.plane } ∧
    (∀ j, j ≠ i → planeGet t.ctx.plane j = planeGet s.ctx.plane j) ∧
    (planeGet t.ctx.plane i).length = (planeGet s.ctx.plane i).length ∧
    (∀ k, k < w.o ∨ w.o + n ≤ k → (planeGet t.ctx.plane i)[k]? = (planeGet s.ctx.plane i)[k]?) ∧
    (∃ w' stage, t.activity = .running input w' stage ∧
      w' = { w with p := w'.p, value := w'.value, o := w.o + n, remaining := w.remaining - n }) ∧
    t.pending = s.pending ∧ t.params = s.params ∧ t.draws = s.draws

/-! ## CLX, UPS and CSC -/

/-- R140: CLX gives each byte `c` of the plane the sample `sext_9(c * 2^s)`, and changes only CO or CG. -/
def Obligations.ColorLossSignExtendsNineBits : Prop :=
  ∀ (c : Chroma) (s : State) (input : List Byte) (w : Work), s.activity = .running input w (.clx c) →
    ∃ t, exec (.clx c) s = .next t ∧
      t.activity = .running input w (match c with
        | .co => .clx .cg | .cg => if s.ctx.subsampling then .ups .co else .csc) ∧
      t.ctx = (match c with
        | .co => { s.ctx with co := t.ctx.co } | .cg => { s.ctx with cg := t.ctx.cg }) ∧
      (chromaGet t.ctx c).length = (planeGet s.ctx.plane (chromaPlane c)).length ∧
      (∀ (k : Nat) (b : Byte), (planeGet s.ctx.plane (chromaPlane c))[k]? = some b →
        ∃ x : Sample, (chromaGet t.ctx c)[k]? = some x ∧
          x.toInt = (if b.toNat * 2 ^ s.ctx.colorLossLevel.toNat % 512 < 256
            then ((b.toNat * 2 ^ s.ctx.colorLossLevel.toNat % 512 : Nat) : Int)
            else ((b.toNat * 2 ^ s.ctx.colorLossLevel.toNat % 512 : Nat) : Int) - 512)) ∧
      t.pending = s.pending ∧ t.params = s.params ∧ t.draws = s.draws

/-- R141 (the spec marks the bands as derived): level 0 keeps the byte, level 8 gives -256 or 0, and from level 9 on every
sample is 0. -/
def Obligations.ColorLossBands : Prop :=
  ∀ (level c : Byte),
    (level = 0 → (expandByte level c).toInt = c.toNat) ∧
    (level = 8 → (expandByte level c).toInt = if c.toNat % 2 = 1 then -256 else 0) ∧
    (9 ≤ level.toNat → (expandByte level c).toInt = 0) ∧
    sampleInRange (expandByte level c)

/-- R150 in its closed form: UPS replaces CO or CG by four times as many samples, sample `(x, y)` being input sample
`(x div 2, y div 2)`, and changes nothing else of the context. The row length is an operand of UPS (decision
D17, log entry 19). -/
def Obligations.UpsamplingReplicatesTwoByTwo : Prop :=
  ∀ (c : Chroma) (w2 rows : Nat) (s : State) (input : List Byte) (w : Work),
    s.activity = .running input w (.ups c) → 1 ≤ w2 → (chromaGet s.ctx c).length = rows * w2 →
    ∃ t w', exec (.ups c w2) s = .next t ∧
      t.activity = .running input w' (match c with | .co => .ups .cg | .cg => .csc) ∧
      w' = { w with r := w'.r, k := w'.k } ∧
      t.ctx = (match c with
        | .co => { s.ctx with co := t.ctx.co } | .cg => { s.ctx with cg := t.ctx.cg }) ∧
      (chromaGet t.ctx c).length = 4 * (chromaGet s.ctx c).length ∧
      (∀ x y, x < 2 * w2 → y < 2 * rows →
        (chromaGet t.ctx c)[y * (2 * w2) + x]? = (chromaGet s.ctx c)[y / 2 * w2 + x / 2]?) ∧
      t.pending = s.pending ∧ t.params = s.params

/-- Spec 93 I16 and the model's choice (log entry 19): UPS with `w2 = 0`, or with a sample count that is no multiple of `w2`,
is refused. -/
def Obligations.UpsamplingRefusesBadGeometry : Prop :=
  ∀ (c : Chroma) (w2 : Nat) (s : State) (input : List Byte) (w : Work),
    s.activity = .running input w (.ups c) → (w2 = 0 ∨ ¬ w2 ∣ (chromaGet s.ctx c).length) →
    exec (.ups c w2) s = .refused .upsGeometry

/-- R160, R161, R162, R163, R164 and R108: on complete buffers CSC writes the whole of OUT, pixel `(x, y)` from source index
`y * (W + pad) + x` with truncating halves, wraparound and alpha forcing, and the command ends with STATUS = OK and both
valid bits 1. R160 itself writes only OUT: that CSC holds commit (R108), so that the core is idle after it, is the model's
choice (log entry 5). -/
def Obligations.ConversionWritesTheBitmap : Prop :=
  ∀ (s : State) (input : List Byte) (w : Work), s.activity = .running input w .csc → buffersComplete s.ctx →
    ∃ t, exec .csc s = .next t ∧ t.activity = .idle ∧
      t.ctx = { s.ctx with out := t.ctx.out, status := .ok, outputValid := true, buffersValid := true } ∧
      t.ctx.out.length = s.ctx.width.toNat * s.ctx.height.toNat * 4 ∧
      (∀ x y, x < s.ctx.width.toNat → y < s.ctx.height.toNat →
        ∃ (luma alpha : Byte) (co cg : Sample),
          s.ctx.plane.y[y * (if s.ctx.subsampling then pad8 s.ctx.width.toNat else s.ctx.width.toNat) + x]? = some luma ∧
          s.ctx.co[y * (if s.ctx.subsampling then pad8 s.ctx.width.toNat else s.ctx.width.toNat) + x]? = some co ∧
          s.ctx.cg[y * (if s.ctx.subsampling then pad8 s.ctx.width.toNat else s.ctx.width.toNat) + x]? = some cg ∧
          s.ctx.plane.alpha[y * s.ctx.width.toNat + x]? = some alpha ∧
          t.ctx.out[4 * (y * s.ctx.width.toNat + x)]? =
            some (BitVec.ofInt 8 (luma.toNat - Int.tdiv co.toInt 2 - Int.tdiv cg.toInt 2)) ∧
          t.ctx.out[4 * (y * s.ctx.width.toNat + x) + 1]? = some (BitVec.ofInt 8 (luma.toNat + Int.tdiv cg.toInt 2)) ∧
          t.ctx.out[4 * (y * s.ctx.width.toNat + x) + 2]? =
            some (BitVec.ofInt 8 (luma.toNat + Int.tdiv co.toInt 2 - Int.tdiv cg.toInt 2)) ∧
          t.ctx.out[4 * (y * s.ctx.width.toNat + x) + 3]? = some (if alpha = 0 then 0xFF#8 else alpha)) ∧
      t.pending = s.pending ∧ t.params = s.params ∧ t.draws = s.draws

/-- R163 (ranges marked derived there): the sums stay in the ranges of R163, and each stored byte is the sum modulo 256. -/
def Obligations.PixelSumsWrapModulo256 : Prop :=
  (∀ (y : Byte) (co cg : Sample), sampleInRange co → sampleInRange cg →
    (-255 ≤ redSum y co cg ∧ redSum y co cg ≤ 510) ∧ (-128 ≤ greenSum y cg ∧ greenSum y cg ≤ 382) ∧
    (-254 ≤ blueSum y co cg ∧ blueSum y co cg ≤ 511)) ∧
  (∀ v : Int, ((low8 v).toNat : Int) = v % 256) ∧
  (∀ (y a : Byte) (co cg : Sample),
    pixelBytes y co cg a =
      [low8 (blueSum y co cg), low8 (greenSum y cg), low8 (redSum y co cg), if a = 0 then 0xFF#8 else a])

/-! ## Encoding and the step -/

/-- R53 and R11: the byte weights of a 4-byte value in both byte orders. -/
def Obligations.ByteOrderSetsTheWeights : Prop :=
  ∀ b0 b1 b2 b3 : Byte,
    (assemble32 .le b0 b1 b2 b3).toNat =
      b0.toNat + 256 * b1.toNat + 65536 * b2.toNat + 16777216 * b3.toNat ∧
    (assemble32 .be b0 b1 b2 b3).toNat =
      16777216 * b0.toNat + 65536 * b1.toNat + 256 * b2.toNat + b3.toNat

/-- Words written out from the formats of spec 30 decode to the instruction they stand for. -/
def Obligations.SpecWordsDecode : Prop :=
  decode .le (.token 9 [0x05, 0x05, 0x03, 0xAA]) = .ok (.runs 0x05 0x03) ∧
  decode .le (.token 32 [0x09, 0x09, 0xFF, 0x1C, 0x00, 0x00, 0x00, 0x01]) = .ok (.runl 0x09 28) ∧
  decode .le (.token 12 [0x11, 0x22]) = .ok (.lit 0x11) ∧
  decode .le (.token 5 [0x07, 0x07]) = .ok (.lit5 0x07) ∧
  decode .le (.token 4 [0xAA, 0xBB, 0xCC, 0xDD]) = .ok (.trail 0xAA 0xBB 0xCC 0xDD) ∧
  decode .le (.plane .alpha 0 8) = .ok .planeFill ∧ decode .le (.plane .y 0 8) = .ok (.planeRle .y) ∧
  decode .le (.plane .cg 9 8) = .ok (.planeRaw .cg)

/-- R71 to R78, R82: decoding an encoded well-formed instruction gives it back, in both byte orders; and a token's or a
header's own bytes are read as that instruction in every context that admits it. The commands and the pipeline units have no
byte layout: their units are the model's (log entry 13). -/
def Obligations.DecodingInvertsEncoding : Prop :=
  ∀ (bo : ByteOrder) (i : Instr), i.wellFormed = true →
    decode bo (encode bo i) = .ok i ∧
    (∀ (remaining : Nat) (after : List Byte), i.admittedBefore remaining after = true →
      decodeToken bo remaining (encodeBytes bo i ++ after) = .ok i) ∧
    (∀ (a b c d : U32) (l sub x0 x1 : Byte) (after : List Byte), i = .hdr a b c d l sub x0 x1 →
      decodeHeader bo (encodeBytes bo i ++ after) = .ok i)

/-- R74 to R78, the other direction: bytes that decode to a token begin with that token's own bytes, in a context that
admits it, and the token is well formed. So each token stream has one reading. -/
def Obligations.DecodedTokenIsItsBytes : Prop :=
  ∀ (bo : ByteOrder) (remaining : Nat) (bs : List Byte) (i : Instr), decodeToken bo remaining bs = .ok i →
    i.wellFormed = true ∧
    ∃ after, bs = encodeBytes bo i ++ after ∧ i.admittedBefore remaining after = true

/-- The model's step: the meaning of the decoded unit. For a host command on an idle core, with the command taken off the
host's list (the model's choice, log entry 6); for a unit of a running command, on the state as it stands. That a step is one
unit is the model's choice too (log entry 5): the core itself fetches no instruction (R22). -/
def Obligations.StepRunsTheDecodedUnit : Prop :=
  (∀ (s : State) (c : HostCommand) (rest : List HostCommand), s.activity = .idle ∨ s.activity = .uncreated →
    s.pending = c :: rest → step s = exec (decodeCommand c) { s with pending := rest }) ∧
  (∀ (s : State) (input : List Byte) (w : Work) (stage : Stage) (i : Instr),
    s.activity = .running input w stage →
    (match stage with
      | .header => decodeHeader s.params.byteOrder input = .ok i
      | .plane j => decodePlane j (planeGet s.ctx.planeByteCount j).toNat (planeGet s.ctx.planeTargetSize j) = i
      | .tokens _ => decodeToken s.params.byteOrder w.remaining ((input.drop w.p).take (w.stop - w.p)) = .ok i
      | .clx c => i = .clx c
      | .ups c => i = .ups c (pad8 s.ctx.width.toNat / 2)
      | .csc => i = .csc) →
    step s = exec i s)

/-- R186 and the model's host list (log entry 6): an idle core with no command pending holds its whole state. -/
def Obligations.IdleCoreHoldsItsContext : Prop :=
  ∀ s : State, s.activity = .idle → s.pending = [] → step s = .next s

/-! ## Whole-machine rules -/

/-- The array operations, for bytes and samples alike (R11, R51): a write keeps the length, an element that was written reads
as written, every other element reads as before. A read or a write that reaches beyond the length is the fault `arrayIndex`,
which is the model's (log entry 15): R51 says only that no such access happens. -/
def Obligations.WriteThenReadAnArray : Prop :=
  ∀ (α : Type) (sp : Space) (a xs : List α) (k : Nat),
    (k + xs.length ≤ a.length → ∃ a', writeAt sp a k xs = .ok a' ∧ a'.length = a.length ∧
      (∀ n x, xs[n]? = some x → readAt sp a' (k + n) = .ok x) ∧
      (∀ n, n < k ∨ k + xs.length ≤ n → readAt sp a' n = readAt sp a n)) ∧
    (a.length < k + xs.length → writeAt sp a k xs = .error (.arrayIndex sp)) ∧
    (∀ n, readAt sp a n = .error (.arrayIndex sp) ↔ a.length ≤ n)

/-- R21, R24, R25: no instruction but NEW_CONTEXT and SET_DIMENSIONS changes WIDTH or HEIGHT. -/
def Obligations.OnlySetDimensionsChangesTheSizes : Prop :=
  ∀ (i : Instr) (s t : State), exec i s = .next t → i ≠ .newContext → (∀ w h, i ≠ .setDimensions w h) →
    t.ctx.width = s.ctx.width ∧ t.ctx.height = s.ctx.height

/-- R33, R34, R108: STATUS changes only by NEW_CONTEXT or at the end of a running PROCESS_MESSAGE, and OUTPUT_VALID is set
only with STATUS = OK. That CSC is the instruction that sets it is the model's choice (log entry 5: CSC holds commit, which
R108 has as a step of its own). -/
def Obligations.StatusChangesOnlyAtTheEnd : Prop :=
  ∀ (i : Instr) (s t : State), exec i s = .next t →
    (i ≠ .newContext → t.ctx.status ≠ s.ctx.status →
      (∃ input w stage, s.activity = .running input w stage) ∧ t.activity = .idle ∧ t.ctx.status ≠ .none) ∧
    (s.ctx.outputValid = false → t.ctx.outputValid = true → i = .csc ∧ t.ctx.status = .ok)

/-- R50, R62, R194: while a command runs its message is never changed, and when it ends the core keeps no reference to it. IN
is the running command's own data (log entry 16). -/
def Obligations.MessageIsHeldUnchanged : Prop :=
  ∀ (i : Instr) (s t : State) (input : List Byte) (w : Work) (stage : Stage),
    s.activity = .running input w stage → exec i s = .next t →
    t.activity = .idle ∨ ∃ w' stage', t.activity = .running input w' stage'

/-- No instruction touches the host's list (the model's own field, log entry 6) or the parameters of R6, so the byte order
cannot be switched at run time (R53); the draw counter (log entry 7) never goes down. -/
def Obligations.HostAndEnvironmentAreUntouched : Prop :=
  ∀ (i : Instr) (s t : State), exec i s = .next t →
    t.pending = s.pending ∧ t.params = s.params ∧ s.draws ≤ t.draws

/-- R21, R195, R196: the host reads the context only between commands, and takes OUT as the bitmap only while OUTPUT_VALID
is 1. -/
def Obligations.HostReadsOnlyBetweenCommands : Prop :=
  ∀ s : State,
    (s.activity = .idle → hostView s = some s.ctx) ∧
    (∀ input w stage, s.activity = .running input w stage → hostView s = none ∧ hostBitmap s = none) ∧
    (∀ bitmap, hostBitmap s = some bitmap ↔
      s.activity = .idle ∧ s.ctx.outputValid = true ∧ bitmap = s.ctx.out)

/-- The invariant holds right after reset, whose activity and parameters are the model's choice (log entries 11 and 4). -/
def Obligations.ResetMeetsTheInvariant : Prop := Inv State.reset

/-- R29 to R35, R51, R129, R151, R161: every step from a state that meets the invariant gives a state that meets it. The
stages it speaks of are the model's (log entry 5). -/
def Obligations.EveryStepKeepsTheInvariant : Prop :=
  ∀ s t : State, Inv s → step s = .next t → Inv t

/-- R51: from a state that meets the invariant no step reaches beyond an array; and while a command runs, every step has a
next state. The fault `arrayIndex` is the model's (log entry 15), and so is the step (log entry 5). -/
def Obligations.NoStepReachesBeyondAnArray : Prop :=
  ∀ s : State, Inv s →
    (∀ f, step s ≠ .fault f) ∧
    (∀ input w stage, s.activity = .running input w stage → ∃ t, step s = .next t)

/-! ## The whole message -/

/-- R102 as a whole, with R173 and R199: from an idle core, PROCESS_MESSAGE ends within `IN_LEN + 15` steps, and what it
leaves is the reference function of the message, the dimensions and the parameters: the whole context on success, STATUS
and the cleared valid bits on an error. The bound counts the model's steps (log entry 5). -/
def Obligations.MessageRunsToItsReference : Prop :=
  ∀ (s : State) (w h : U32) (input : List Byte) (rest : List HostCommand),
    s.activity = .idle → s.pending = ⟨2, w, h, input⟩ :: rest →
    ∃ n t, n ≤ input.length + 15 ∧ Host.Core.run Sys2Proof.core n s = .next t ∧
      t.activity = .idle ∧ t.pending = rest ∧ t.params = s.params ∧
      (∀ c, refMessage s.params s.ctx.width s.ctx.height input = .ok c → t.ctx = c) ∧
      (∀ k, refMessage s.params s.ctx.width s.ctx.height input = .error k →
        t.ctx.status = errorStatus k ∧ t.ctx.outputValid = false ∧ t.ctx.buffersValid = false ∧
        t.ctx.width = s.ctx.width ∧ t.ctx.height = s.ctx.height)

/-- R102 (spec V-SRC-9, marked derived there): the same message on the same dimensions and parameters gives the same
STATUS, and on success the same OUT, whatever else the two contexts hold. Steps and the host's list are the model's (log
entries 5 and 6). -/
def Obligations.SameMessageSameBitmap : Prop :=
  ∀ (s₁ s₂ : State) (w₁ h₁ w₂ h₂ : U32) (input : List Byte) (rest₁ rest₂ : List HostCommand),
    s₁.activity = .idle → s₂.activity = .idle →
    s₁.pending = ⟨2, w₁, h₁, input⟩ :: rest₁ → s₂.pending = ⟨2, w₂, h₂, input⟩ :: rest₂ →
    s₁.ctx.width = s₂.ctx.width → s₁.ctx.height = s₂.ctx.height → s₁.params = s₂.params →
    ∃ n₁ n₂ t₁ t₂,
      Host.Core.run Sys2Proof.core n₁ s₁ = .next t₁ ∧ Host.Core.run Sys2Proof.core n₂ s₂ = .next t₂ ∧
      t₁.activity = .idle ∧ t₂.activity = .idle ∧ t₁.pending = rest₁ ∧ t₂.pending = rest₂ ∧
      hostBitmap t₁ = hostBitmap t₂ ∧ t₁.ctx.status = t₂.ctx.status ∧
      (t₁.ctx.status = .ok → t₁.ctx = t₂.ctx)
end

