-- ==== Sys2Proof/Laws/State.lean ====
section
/-! SUPPORT. One lemma per field per named update of the context and of the state, so that no later proof unfolds one. -/

namespace Sys2Proof.Machine


/-! ### `setPlane` -/

@[simp] theorem setPlane_width (c : Context) (i : PlaneId) (a : List Byte) : (setPlane c i a).width = c.width := rfl
@[simp] theorem setPlane_height (c : Context) (i : PlaneId) (a : List Byte) : (setPlane c i a).height = c.height := rfl
@[simp] theorem setPlane_colorLossLevel (c : Context) (i : PlaneId) (a : List Byte) : (setPlane c i a).colorLossLevel = c.colorLossLevel := rfl
@[simp] theorem setPlane_subsampling (c : Context) (i : PlaneId) (a : List Byte) : (setPlane c i a).subsampling = c.subsampling := rfl
@[simp] theorem setPlane_planeByteCount (c : Context) (i : PlaneId) (a : List Byte) : (setPlane c i a).planeByteCount = c.planeByteCount := rfl
@[simp] theorem setPlane_planeTargetSize (c : Context) (i : PlaneId) (a : List Byte) : (setPlane c i a).planeTargetSize = c.planeTargetSize := rfl
@[simp] theorem setPlane_plane (c : Context) (i : PlaneId) (a : List Byte) : (setPlane c i a).plane = planeSet c.plane i a := rfl
@[simp] theorem setPlane_co (c : Context) (i : PlaneId) (a : List Byte) : (setPlane c i a).co = c.co := rfl
@[simp] theorem setPlane_cg (c : Context) (i : PlaneId) (a : List Byte) : (setPlane c i a).cg = c.cg := rfl
@[simp] theorem setPlane_out (c : Context) (i : PlaneId) (a : List Byte) : (setPlane c i a).out = c.out := rfl
@[simp] theorem setPlane_status (c : Context) (i : PlaneId) (a : List Byte) : (setPlane c i a).status = c.status := rfl
@[simp] theorem setPlane_outputValid (c : Context) (i : PlaneId) (a : List Byte) : (setPlane c i a).outputValid = c.outputValid := rfl
@[simp] theorem setPlane_buffersValid (c : Context) (i : PlaneId) (a : List Byte) : (setPlane c i a).buffersValid = c.buffersValid := rfl

/-! ### `setOut` -/

@[simp] theorem setOut_width (c : Context) (a : List Byte) : (setOut c a).width = c.width := rfl
@[simp] theorem setOut_height (c : Context) (a : List Byte) : (setOut c a).height = c.height := rfl
@[simp] theorem setOut_colorLossLevel (c : Context) (a : List Byte) : (setOut c a).colorLossLevel = c.colorLossLevel := rfl
@[simp] theorem setOut_subsampling (c : Context) (a : List Byte) : (setOut c a).subsampling = c.subsampling := rfl
@[simp] theorem setOut_planeByteCount (c : Context) (a : List Byte) : (setOut c a).planeByteCount = c.planeByteCount := rfl
@[simp] theorem setOut_planeTargetSize (c : Context) (a : List Byte) : (setOut c a).planeTargetSize = c.planeTargetSize := rfl
@[simp] theorem setOut_plane (c : Context) (a : List Byte) : (setOut c a).plane = c.plane := rfl
@[simp] theorem setOut_co (c : Context) (a : List Byte) : (setOut c a).co = c.co := rfl
@[simp] theorem setOut_cg (c : Context) (a : List Byte) : (setOut c a).cg = c.cg := rfl
@[simp] theorem setOut_out (c : Context) (a : List Byte) : (setOut c a).out = a := rfl
@[simp] theorem setOut_status (c : Context) (a : List Byte) : (setOut c a).status = c.status := rfl
@[simp] theorem setOut_outputValid (c : Context) (a : List Byte) : (setOut c a).outputValid = c.outputValid := rfl
@[simp] theorem setOut_buffersValid (c : Context) (a : List Byte) : (setOut c a).buffersValid = c.buffersValid := rfl

/-! ### `clearValid` -/

@[simp] theorem clearValid_width (c : Context) : (clearValid c).width = c.width := rfl
@[simp] theorem clearValid_height (c : Context) : (clearValid c).height = c.height := rfl
@[simp] theorem clearValid_colorLossLevel (c : Context) : (clearValid c).colorLossLevel = c.colorLossLevel := rfl
@[simp] theorem clearValid_subsampling (c : Context) : (clearValid c).subsampling = c.subsampling := rfl
@[simp] theorem clearValid_planeByteCount (c : Context) : (clearValid c).planeByteCount = c.planeByteCount := rfl
@[simp] theorem clearValid_planeTargetSize (c : Context) : (clearValid c).planeTargetSize = c.planeTargetSize := rfl
@[simp] theorem clearValid_plane (c : Context) : (clearValid c).plane = c.plane := rfl
@[simp] theorem clearValid_co (c : Context) : (clearValid c).co = c.co := rfl
@[simp] theorem clearValid_cg (c : Context) : (clearValid c).cg = c.cg := rfl
@[simp] theorem clearValid_out (c : Context) : (clearValid c).out = c.out := rfl
@[simp] theorem clearValid_status (c : Context) : (clearValid c).status = c.status := rfl
@[simp] theorem clearValid_outputValid (c : Context) : (clearValid c).outputValid = false := rfl
@[simp] theorem clearValid_buffersValid (c : Context) : (clearValid c).buffersValid = false := rfl

/-! ### `setStatus` -/

@[simp] theorem setStatus_width (c : Context) (st : Status) : (setStatus c st).width = c.width := rfl
@[simp] theorem setStatus_height (c : Context) (st : Status) : (setStatus c st).height = c.height := rfl
@[simp] theorem setStatus_colorLossLevel (c : Context) (st : Status) : (setStatus c st).colorLossLevel = c.colorLossLevel := rfl
@[simp] theorem setStatus_subsampling (c : Context) (st : Status) : (setStatus c st).subsampling = c.subsampling := rfl
@[simp] theorem setStatus_planeByteCount (c : Context) (st : Status) : (setStatus c st).planeByteCount = c.planeByteCount := rfl
@[simp] theorem setStatus_planeTargetSize (c : Context) (st : Status) : (setStatus c st).planeTargetSize = c.planeTargetSize := rfl
@[simp] theorem setStatus_plane (c : Context) (st : Status) : (setStatus c st).plane = c.plane := rfl
@[simp] theorem setStatus_co (c : Context) (st : Status) : (setStatus c st).co = c.co := rfl
@[simp] theorem setStatus_cg (c : Context) (st : Status) : (setStatus c st).cg = c.cg := rfl
@[simp] theorem setStatus_out (c : Context) (st : Status) : (setStatus c st).out = c.out := rfl
@[simp] theorem setStatus_status (c : Context) (st : Status) : (setStatus c st).status = st := rfl
@[simp] theorem setStatus_outputValid (c : Context) (st : Status) : (setStatus c st).outputValid = c.outputValid := rfl
@[simp] theorem setStatus_buffersValid (c : Context) (st : Status) : (setStatus c st).buffersValid = c.buffersValid := rfl

/-! ### `commitContext` -/

@[simp] theorem commitContext_width (c : Context) : (commitContext c).width = c.width := rfl
@[simp] theorem commitContext_height (c : Context) : (commitContext c).height = c.height := rfl
@[simp] theorem commitContext_colorLossLevel (c : Context) : (commitContext c).colorLossLevel = c.colorLossLevel := rfl
@[simp] theorem commitContext_subsampling (c : Context) : (commitContext c).subsampling = c.subsampling := rfl
@[simp] theorem commitContext_planeByteCount (c : Context) : (commitContext c).planeByteCount = c.planeByteCount := rfl
@[simp] theorem commitContext_planeTargetSize (c : Context) : (commitContext c).planeTargetSize = c.planeTargetSize := rfl
@[simp] theorem commitContext_plane (c : Context) : (commitContext c).plane = c.plane := rfl
@[simp] theorem commitContext_co (c : Context) : (commitContext c).co = c.co := rfl
@[simp] theorem commitContext_cg (c : Context) : (commitContext c).cg = c.cg := rfl
@[simp] theorem commitContext_out (c : Context) : (commitContext c).out = c.out := rfl
@[simp] theorem commitContext_status (c : Context) : (commitContext c).status = .ok := rfl
@[simp] theorem commitContext_outputValid (c : Context) : (commitContext c).outputValid = true := rfl
@[simp] theorem commitContext_buffersValid (c : Context) : (commitContext c).buffersValid = true := rfl

/-! ### `computeSizes` -/

@[simp] theorem computeSizes_width (c : Context) : (computeSizes c).width = c.width := rfl
@[simp] theorem computeSizes_height (c : Context) : (computeSizes c).height = c.height := rfl
@[simp] theorem computeSizes_colorLossLevel (c : Context) : (computeSizes c).colorLossLevel = c.colorLossLevel := rfl
@[simp] theorem computeSizes_subsampling (c : Context) : (computeSizes c).subsampling = c.subsampling := rfl
@[simp] theorem computeSizes_planeByteCount (c : Context) : (computeSizes c).planeByteCount = c.planeByteCount := rfl
@[simp] theorem computeSizes_planeTargetSize (c : Context) : (computeSizes c).planeTargetSize = targetSizes c.subsampling c.width.toNat c.height.toNat := rfl
@[simp] theorem computeSizes_plane (c : Context) : (computeSizes c).plane = c.plane := rfl
@[simp] theorem computeSizes_co (c : Context) : (computeSizes c).co = c.co := rfl
@[simp] theorem computeSizes_cg (c : Context) : (computeSizes c).cg = c.cg := rfl
@[simp] theorem computeSizes_out (c : Context) : (computeSizes c).out = c.out := rfl
@[simp] theorem computeSizes_status (c : Context) : (computeSizes c).status = c.status := rfl
@[simp] theorem computeSizes_outputValid (c : Context) : (computeSizes c).outputValid = c.outputValid := rfl
@[simp] theorem computeSizes_buffersValid (c : Context) : (computeSizes c).buffersValid = c.buffersValid := rfl

/-! ### `parseHeader` -/

@[simp] theorem parseHeader_width (c : Context) (n0 n1 n2 n3 : U32) (level sub : Byte) : (parseHeader c n0 n1 n2 n3 level sub).width = c.width := rfl
@[simp] theorem parseHeader_height (c : Context) (n0 n1 n2 n3 : U32) (level sub : Byte) : (parseHeader c n0 n1 n2 n3 level sub).height = c.height := rfl
@[simp] theorem parseHeader_colorLossLevel (c : Context) (n0 n1 n2 n3 : U32) (level sub : Byte) : (parseHeader c n0 n1 n2 n3 level sub).colorLossLevel = level := rfl
@[simp] theorem parseHeader_subsampling (c : Context) (n0 n1 n2 n3 : U32) (level sub : Byte) : (parseHeader c n0 n1 n2 n3 level sub).subsampling = decide (sub ≠ 0) := rfl
@[simp] theorem parseHeader_planeByteCount (c : Context) (n0 n1 n2 n3 : U32) (level sub : Byte) : (parseHeader c n0 n1 n2 n3 level sub).planeByteCount = ⟨n0, n1, n2, n3⟩ := rfl
@[simp] theorem parseHeader_planeTargetSize (c : Context) (n0 n1 n2 n3 : U32) (level sub : Byte) : (parseHeader c n0 n1 n2 n3 level sub).planeTargetSize = c.planeTargetSize := rfl
@[simp] theorem parseHeader_plane (c : Context) (n0 n1 n2 n3 : U32) (level sub : Byte) : (parseHeader c n0 n1 n2 n3 level sub).plane = c.plane := rfl
@[simp] theorem parseHeader_co (c : Context) (n0 n1 n2 n3 : U32) (level sub : Byte) : (parseHeader c n0 n1 n2 n3 level sub).co = c.co := rfl
@[simp] theorem parseHeader_cg (c : Context) (n0 n1 n2 n3 : U32) (level sub : Byte) : (parseHeader c n0 n1 n2 n3 level sub).cg = c.cg := rfl
@[simp] theorem parseHeader_out (c : Context) (n0 n1 n2 n3 : U32) (level sub : Byte) : (parseHeader c n0 n1 n2 n3 level sub).out = c.out := rfl
@[simp] theorem parseHeader_status (c : Context) (n0 n1 n2 n3 : U32) (level sub : Byte) : (parseHeader c n0 n1 n2 n3 level sub).status = c.status := rfl
@[simp] theorem parseHeader_outputValid (c : Context) (n0 n1 n2 n3 : U32) (level sub : Byte) : (parseHeader c n0 n1 n2 n3 level sub).outputValid = c.outputValid := rfl
@[simp] theorem parseHeader_buffersValid (c : Context) (n0 n1 n2 n3 : U32) (level sub : Byte) : (parseHeader c n0 n1 n2 n3 level sub).buffersValid = c.buffersValid := rfl

/-! ### `setChroma` -/

@[simp] theorem setChroma_width (c : Context) (ch : Chroma) (a : List Sample) : (setChroma c ch a).width = c.width := by cases ch <;> rfl
@[simp] theorem setChroma_height (c : Context) (ch : Chroma) (a : List Sample) : (setChroma c ch a).height = c.height := by cases ch <;> rfl
@[simp] theorem setChroma_colorLossLevel (c : Context) (ch : Chroma) (a : List Sample) : (setChroma c ch a).colorLossLevel = c.colorLossLevel := by cases ch <;> rfl
@[simp] theorem setChroma_subsampling (c : Context) (ch : Chroma) (a : List Sample) : (setChroma c ch a).subsampling = c.subsampling := by cases ch <;> rfl
@[simp] theorem setChroma_planeByteCount (c : Context) (ch : Chroma) (a : List Sample) : (setChroma c ch a).planeByteCount = c.planeByteCount := by cases ch <;> rfl
@[simp] theorem setChroma_planeTargetSize (c : Context) (ch : Chroma) (a : List Sample) : (setChroma c ch a).planeTargetSize = c.planeTargetSize := by cases ch <;> rfl
@[simp] theorem setChroma_plane (c : Context) (ch : Chroma) (a : List Sample) : (setChroma c ch a).plane = c.plane := by cases ch <;> rfl
@[simp] theorem setChroma_out (c : Context) (ch : Chroma) (a : List Sample) : (setChroma c ch a).out = c.out := by cases ch <;> rfl
@[simp] theorem setChroma_status (c : Context) (ch : Chroma) (a : List Sample) : (setChroma c ch a).status = c.status := by cases ch <;> rfl
@[simp] theorem setChroma_outputValid (c : Context) (ch : Chroma) (a : List Sample) : (setChroma c ch a).outputValid = c.outputValid := by cases ch <;> rfl
@[simp] theorem setChroma_buffersValid (c : Context) (ch : Chroma) (a : List Sample) : (setChroma c ch a).buffersValid = c.buffersValid := by cases ch <;> rfl

/-! ### `unspecifyHeader`, `unspecifyBuffers`, `unspecify` and `invalidate` -/

@[simp] theorem unspecifyHeader_width (P : Params) (d : Nat) (c : Context) : (unspecifyHeader P d c).width = c.width := rfl
@[simp] theorem unspecifyHeader_height (P : Params) (d : Nat) (c : Context) : (unspecifyHeader P d c).height = c.height := rfl
@[simp] theorem unspecifyHeader_status (P : Params) (d : Nat) (c : Context) : (unspecifyHeader P d c).status = c.status := rfl
@[simp] theorem unspecifyHeader_outputValid (P : Params) (d : Nat) (c : Context) : (unspecifyHeader P d c).outputValid = c.outputValid := rfl
@[simp] theorem unspecifyHeader_buffersValid (P : Params) (d : Nat) (c : Context) : (unspecifyHeader P d c).buffersValid = c.buffersValid := rfl
@[simp] theorem unspecifyHeader_plane (P : Params) (d : Nat) (c : Context) : (unspecifyHeader P d c).plane = c.plane := rfl
@[simp] theorem unspecifyHeader_co (P : Params) (d : Nat) (c : Context) : (unspecifyHeader P d c).co = c.co := rfl
@[simp] theorem unspecifyHeader_cg (P : Params) (d : Nat) (c : Context) : (unspecifyHeader P d c).cg = c.cg := rfl
@[simp] theorem unspecifyHeader_out (P : Params) (d : Nat) (c : Context) : (unspecifyHeader P d c).out = c.out := rfl

@[simp] theorem unspecifyBuffers_width (d : Nat) (c : Context) : (unspecifyBuffers d c).width = c.width := rfl
@[simp] theorem unspecifyBuffers_height (d : Nat) (c : Context) : (unspecifyBuffers d c).height = c.height := rfl
@[simp] theorem unspecifyBuffers_status (d : Nat) (c : Context) : (unspecifyBuffers d c).status = c.status := rfl
@[simp] theorem unspecifyBuffers_outputValid (d : Nat) (c : Context) : (unspecifyBuffers d c).outputValid = c.outputValid := rfl
@[simp] theorem unspecifyBuffers_buffersValid (d : Nat) (c : Context) : (unspecifyBuffers d c).buffersValid = c.buffersValid := rfl
@[simp] theorem unspecifyBuffers_colorLossLevel (d : Nat) (c : Context) : (unspecifyBuffers d c).colorLossLevel = c.colorLossLevel := rfl
@[simp] theorem unspecifyBuffers_subsampling (d : Nat) (c : Context) : (unspecifyBuffers d c).subsampling = c.subsampling := rfl
@[simp] theorem unspecifyBuffers_planeByteCount (d : Nat) (c : Context) : (unspecifyBuffers d c).planeByteCount = c.planeByteCount := rfl
@[simp] theorem unspecifyBuffers_planeTargetSize (d : Nat) (c : Context) : (unspecifyBuffers d c).planeTargetSize = c.planeTargetSize := rfl

@[simp] theorem unspecify_width (P : Params) (d : Nat) (c : Context) : (unspecify P d c).width = c.width := rfl
@[simp] theorem unspecify_height (P : Params) (d : Nat) (c : Context) : (unspecify P d c).height = c.height := rfl
@[simp] theorem unspecify_status (P : Params) (d : Nat) (c : Context) : (unspecify P d c).status = c.status := rfl
@[simp] theorem unspecify_outputValid (P : Params) (d : Nat) (c : Context) : (unspecify P d c).outputValid = c.outputValid := rfl
@[simp] theorem unspecify_buffersValid (P : Params) (d : Nat) (c : Context) : (unspecify P d c).buffersValid = c.buffersValid := rfl

/-- SET_DIMENSIONS on a context no message has completed on: only OUT and the buffers are unspecified (R35). -/
theorem invalidate_none (P : Params) (d : Nat) {c : Context} (h : c.status = .none) :
    invalidate P d c = unspecifyBuffers d c := by simp only [invalidate, h]

/-- SET_DIMENSIONS on any other context: the header fields are unspecified too. -/
theorem invalidate_completed (P : Params) (d : Nat) {c : Context} (h : c.status ≠ .none) :
    invalidate P d c = unspecify P d c := by
  unfold invalidate
  split <;> first | rfl | contradiction

@[simp] theorem invalidate_width (P : Params) (d : Nat) (c : Context) : (invalidate P d c).width = c.width := by
  unfold invalidate; split <;> rfl
@[simp] theorem invalidate_height (P : Params) (d : Nat) (c : Context) : (invalidate P d c).height = c.height := by
  unfold invalidate; split <;> rfl
@[simp] theorem invalidate_status (P : Params) (d : Nat) (c : Context) : (invalidate P d c).status = c.status := by
  unfold invalidate; split <;> rfl
@[simp] theorem invalidate_outputValid (P : Params) (d : Nat) (c : Context) : (invalidate P d c).outputValid = c.outputValid := by
  unfold invalidate; split <;> rfl
@[simp] theorem invalidate_buffersValid (P : Params) (d : Nat) (c : Context) : (invalidate P d c).buffersValid = c.buffersValid := by
  unfold invalidate; split <;> rfl

/-! ### CO and CG -/

@[simp] theorem chromaGet_setChroma_self (c : Context) (ch : Chroma) (a : List Sample) :
    chromaGet (setChroma c ch a) ch = a := by cases ch <;> rfl

theorem chromaGet_setChroma_other (c : Context) {ch ch' : Chroma} (a : List Sample) (h : ch' ≠ ch) :
    chromaGet (setChroma c ch a) ch' = chromaGet c ch' := by
  cases ch <;> cases ch' <;> first | rfl | exact absurd rfl h

@[simp] theorem setChroma_co_cg (c : Context) (a : List Sample) : (setChroma c .co a).cg = c.cg := rfl
@[simp] theorem setChroma_cg_co (c : Context) (a : List Sample) : (setChroma c .cg a).co = c.co := rfl
@[simp] theorem setChroma_co_co (c : Context) (a : List Sample) : (setChroma c .co a).co = a := rfl
@[simp] theorem setChroma_cg_cg (c : Context) (a : List Sample) : (setChroma c .cg a).cg = a := rfl

/-! ### The four planes -/

@[simp] theorem planeGet_planeSet_self {α : Type} (f : PerPlane α) (i : PlaneId) (x : α) :
    planeGet (planeSet f i x) i = x := by cases i <;> rfl

theorem planeGet_planeSet_other {α : Type} (f : PerPlane α) {i j : PlaneId} (x : α) (h : j ≠ i) :
    planeGet (planeSet f i x) j = planeGet f j := by
  cases i <;> cases j <;> first | rfl | exact absurd rfl h

theorem planeGet_planeSet {α : Type} (f : PerPlane α) (i j : PlaneId) (x : α) :
    planeGet (planeSet f i x) j = if j = i then x else planeGet f j := by
  split
  · next h => subst h; exact planeGet_planeSet_self f j x
  · next h => exact planeGet_planeSet_other f x h


/-! ### `withContext` -/

@[simp] theorem withContext_ctx (s : State) (c : Context) : (withContext s c).ctx = c := rfl
@[simp] theorem withContext_activity (s : State) (c : Context) : (withContext s c).activity = s.activity := rfl
@[simp] theorem withContext_pending (s : State) (c : Context) : (withContext s c).pending = s.pending := rfl
@[simp] theorem withContext_params (s : State) (c : Context) : (withContext s c).params = s.params := rfl
@[simp] theorem withContext_draws (s : State) (c : Context) : (withContext s c).draws = s.draws := rfl

/-! ### `withActivity` -/

@[simp] theorem withActivity_ctx (s : State) (a : Activity) : (withActivity s a).ctx = s.ctx := rfl
@[simp] theorem withActivity_activity (s : State) (a : Activity) : (withActivity s a).activity = a := rfl
@[simp] theorem withActivity_pending (s : State) (a : Activity) : (withActivity s a).pending = s.pending := rfl
@[simp] theorem withActivity_params (s : State) (a : Activity) : (withActivity s a).params = s.params := rfl
@[simp] theorem withActivity_draws (s : State) (a : Activity) : (withActivity s a).draws = s.draws := rfl

/-! ### `countDraw` -/

@[simp] theorem countDraw_ctx (s : State) : (countDraw s).ctx = s.ctx := rfl
@[simp] theorem countDraw_activity (s : State) : (countDraw s).activity = s.activity := rfl
@[simp] theorem countDraw_pending (s : State) : (countDraw s).pending = s.pending := rfl
@[simp] theorem countDraw_params (s : State) : (countDraw s).params = s.params := rfl
@[simp] theorem countDraw_draws (s : State) : (countDraw s).draws = s.draws + 1 := rfl

/-! ### `commit` -/

@[simp] theorem commit_ctx (s : State) : (commit s).ctx = commitContext s.ctx := rfl
@[simp] theorem commit_activity (s : State) : (commit s).activity = .idle := rfl
@[simp] theorem commit_pending (s : State) : (commit s).pending = s.pending := rfl
@[simp] theorem commit_params (s : State) : (commit s).params = s.params := rfl
@[simp] theorem commit_draws (s : State) : (commit s).draws = s.draws := rfl

/-! ### `raiseError` -/

@[simp] theorem raiseError_ctx (k : ErrorKind) (s : State) : (raiseError k s).ctx = clearValid (setStatus (unspecify s.params s.draws s.ctx) (errorStatus k)) := rfl
@[simp] theorem raiseError_activity (k : ErrorKind) (s : State) : (raiseError k s).activity = .idle := rfl
@[simp] theorem raiseError_pending (k : ErrorKind) (s : State) : (raiseError k s).pending = s.pending := rfl
@[simp] theorem raiseError_params (k : ErrorKind) (s : State) : (raiseError k s).params = s.params := rfl
@[simp] theorem raiseError_draws (k : ErrorKind) (s : State) : (raiseError k s).draws = s.draws + 1 := rfl

end Sys2Proof.Machine
end

