-- ==== Sys2Proof/Laws/Ops.lean ====
section
/-! SUPPORT. For each shared operation, what it can answer: cited by the proofs in place of its definition. -/

namespace Sys2Proof.Machine

/-! ## Outcomes and the array operations -/

@[simp] theorem answerOf_ok (s : State) : answerOf (.ok s) = .next s := rfl
@[simp] theorem answerOf_error (f : Fault) : answerOf (.error f) = .fault f := rfl

theorem answerOf_next {x : Except Fault State} {t : State} : answerOf x = .next t ↔ x = .ok t := by
  cases x <;> simp [answerOf]

theorem answerOf_ne_refused (x : Except Fault State) (r : Refusal) : answerOf x ≠ .refused r := by
  cases x <;> simp [answerOf]

/-- A sequence of array operations answers when its first one does and the rest does on its result. -/
theorem bind_ok {α β : Type} {x : Except Fault α} {f : α → Except Fault β} {b : β} :
    (x >>= f) = .ok b ↔ ∃ a, x = .ok a ∧ f a = .ok b := by
  cases x <;> simp [bind, Except.bind]

@[simp] theorem ok_bind {α β : Type} (a : α) (f : α → Except Fault β) :
    ((Except.ok a : Except Fault α) >>= f) = f a := rfl

@[simp] theorem pure_eq_ok {α : Type} (a : α) : (pure a : Except Fault α) = .ok a := rfl

theorem readAt_ok {α : Type} {sp : Space} {a : List α} {k : Nat} {x : α} :
    readAt sp a k = .ok x ↔ a[k]? = some x := by
  unfold readAt; split <;> simp_all

theorem readAt_of_lt {α : Type} (sp : Space) {a : List α} {k : Nat} (h : k < a.length) :
    readAt sp a k = .ok a[k] := by simp [readAt_ok, h]

/-- A read inside the array, with the element named by `getD`. -/
theorem readAt_getD {α : Type} (sp : Space) {a : List α} {k : Nat} (h : k < a.length) (d : α) :
    readAt sp a k = .ok (a.getD k d) := by simp [readAt_ok, h]

theorem readRange_ok {α : Type} {sp : Space} {a xs : List α} {k n : Nat} :
    readRange sp a k n = .ok xs ↔ k + n ≤ a.length ∧ xs = (a.drop k).take n := by
  unfold readRange; split <;> simp_all [eq_comm]

theorem writeAt_ok {α : Type} {sp : Space} {a a' xs : List α} {k : Nat} :
    writeAt sp a k xs = .ok a' ↔
      k + xs.length ≤ a.length ∧ a' = a.take k ++ xs ++ a.drop (k + xs.length) := by
  unfold writeAt; split <;> simp_all [eq_comm]

theorem writeAt_of_le {α : Type} (sp : Space) {a xs : List α} {k : Nat} (h : k + xs.length ≤ a.length) :
    writeAt sp a k xs = .ok (a.take k ++ xs ++ a.drop (k + xs.length)) := writeAt_ok.2 ⟨h, rfl⟩

/-- A write inside the array answers. -/
theorem writeAt_fits {α : Type} (sp : Space) (a xs : List α) (k : Nat) (h : k + xs.length ≤ a.length) :
    ∃ a', writeAt sp a k xs = .ok a' := ⟨_, writeAt_of_le sp h⟩

/-- A write keeps the length: the form of an array. -/
theorem writeAt_length {α : Type} {sp : Space} {a a' xs : List α} {k : Nat} (h : writeAt sp a k xs = .ok a') :
    a'.length = a.length := by
  obtain ⟨hle, rfl⟩ := writeAt_ok.1 h
  simp only [List.length_append, List.length_take, List.length_drop]
  omega

/-- What each element reads as after a write. -/
theorem writeAt_get {α : Type} {sp : Space} {a a' xs : List α} {k : Nat} (h : writeAt sp a k xs = .ok a') (n : Nat) :
    a'[n]? = if k ≤ n ∧ n < k + xs.length then xs[n - k]? else a[n]? := by
  obtain ⟨hle, rfl⟩ := writeAt_ok.1 h
  have hk : (a.take k).length = k := by simp; omega
  split
  · next hn =>
    rw [List.append_assoc, List.getElem?_append_right (by omega), hk, List.getElem?_append_left (by omega)]
  · next hn =>
    by_cases hlt : n < k
    · rw [List.append_assoc, List.getElem?_append_left (by omega), List.getElem?_take_of_lt hlt]
    · rw [List.getElem?_append_right (by simp; omega), List.getElem?_drop]
      congr 1
      simp
      omega

/-- A write in the middle of an array given in three parts. -/
theorem writeAt_middle {α : Type} (sp : Space) (before old after xs : List α) (h : old.length = xs.length) :
    writeAt sp (before ++ old ++ after) before.length xs = .ok (before ++ xs ++ after) := by
  rw [writeAt_of_le]
  · have h1 : (before ++ old ++ after).take before.length = before := by simp
    have h2 : (before ++ old ++ after).drop (before.length + xs.length) = after := by
      rw [← h, ← List.length_append, List.drop_left]
    rw [h1, h2]
  · simp; omega

/-! ## Free values -/

@[simp] theorem freeBytes_length (d sl n : Nat) : (freeBytes d sl n).length = n := by simp [freeBytes]
@[simp] theorem freeSamples_length (d sl n : Nat) : (freeSamples d sl n).length = n := by simp [freeSamples]

/-- A target size stays at most MAX_SIZE when it is unspecified (R29). -/
theorem unspecify_sizes (P : Params) (d : Nat) (c : Context) (i : PlaneId) :
    planeGet (unspecify P d c).planeTargetSize i ≤ P.maxSize := by
  cases i <;> exact Nat.min_le_right _ _

/-- SET_DIMENSIONS keeps a target size or makes it unspecified: at most MAX_SIZE either way (R29, R35). -/
theorem invalidate_sizes {P : Params} (d : Nat) {c : Context} {i : PlaneId}
    (h : planeGet c.planeTargetSize i ≤ P.maxSize) : planeGet (invalidate P d c).planeTargetSize i ≤ P.maxSize := by
  by_cases hs : c.status = .none
  · rw [invalidate_none P d hs]; exact h
  · rw [invalidate_completed P d hs]; exact unspecify_sizes P d c i

/-! ## The token loop -/

/-- What a token's meaning can do before its own effect: run it, raise CorruptRunLength, or be refused. -/
theorem inTokenLoop_at {s : State} {input : List Byte} {w : Work} {i : PlaneId}
    (h : s.activity = .running input w (.tokens i)) (guard : Nat → Bool) (need : Nat)
    (run : List Byte → Work → PlaneId → Answer) :
    inTokenLoop s guard need run =
      if guard w.remaining then
        if w.p + need ≤ w.stop then run input w i else .next (raiseError .corruptRunLength s)
      else .refused .notSelected := by
  simp only [inTokenLoop, h]

/-- A token's meaning with a next state: the core is in the token loop, and the token ran or raised CorruptRunLength. -/
theorem inTokenLoop_next {s t : State} {guard : Nat → Bool} {need : Nat}
    {run : List Byte → Work → PlaneId → Answer} (h : inTokenLoop s guard need run = .next t) :
    ∃ input w i, s.activity = .running input w (.tokens i) ∧ guard w.remaining = true ∧
      ((w.p + need ≤ w.stop ∧ run input w i = .next t) ∨ t = raiseError .corruptRunLength s) := by
  unfold inTokenLoop at h
  split at h
  · next input w i hact =>
    refine ⟨input, w, i, hact, ?_⟩
    split at h
    · next hg =>
      refine ⟨hg, ?_⟩
      split at h
      · next hp => exact .inl ⟨hp, h⟩
      · cases h; exact .inr rfl
    · cases h
  · cases h

/-- A run of `n` bytes with a next state stores them at the output index and moves `o` and `remaining`. -/
theorem emitRun_next {s t : State} {input : List Byte} {w : Work} {i : PlaneId} {n : Nat} :
    emitRun s input w i n = .next t ↔
      ∃ a, writeAt (.plane i) (planeGet s.ctx.plane i) w.o (List.replicate n w.value) = .ok a ∧
        t = withActivity (withContext s (setPlane s.ctx i a))
          (.running input { w with o := w.o + n, remaining := w.remaining - n } (.tokens i)) := by
  simp only [emitRun, answerOf_next, bind_ok, pure_eq_ok, Except.ok.injEq]
  exact ⟨fun ⟨a, h, e⟩ => ⟨a, h, e.symm⟩, fun ⟨a, h, e⟩ => ⟨a, h, e.symm⟩⟩

/-- A run that fits in the plane has a next state. -/
theorem emitRun_fits {s : State} {input : List Byte} {w : Work} {i : PlaneId} {n : Nat}
    (h : w.o + n ≤ (planeGet s.ctx.plane i).length) : ∃ t, emitRun s input w i n = .next t := by
  obtain ⟨a, ha⟩ : ∃ a, writeAt (.plane i) (planeGet s.ctx.plane i) w.o (List.replicate n w.value) = .ok a :=
    ⟨_, writeAt_of_le _ (by simpa using h)⟩
  exact ⟨_, emitRun_next.2 ⟨a, ha, rfl⟩⟩

/-- A whole plane written, with a next state. -/
theorem finishPlane_ok {s t : State} {input : List Byte} {w : Work} {i : PlaneId} {bytes : List Byte} :
    finishPlane s input w i bytes = .ok t ↔
      ∃ a, writeAt (.plane i) (planeGet s.ctx.plane i) 0 bytes = .ok a ∧
        t = withActivity (withContext s (setPlane s.ctx i a)) (.running input w (stageAfterPlane i)) := by
  simp only [finishPlane, bind_ok, pure_eq_ok, Except.ok.injEq]
  exact ⟨fun ⟨a, h, e⟩ => ⟨a, h, e.symm⟩, fun ⟨a, h, e⟩ => ⟨a, h, e.symm⟩⟩

/-- Writing as many bytes as the plane has gives exactly those bytes. -/
theorem finishPlane_whole (s : State) (input : List Byte) (w : Work) (i : PlaneId) (bytes : List Byte)
    (h : bytes.length = (planeGet s.ctx.plane i).length) :
    finishPlane s input w i bytes =
      .ok (withActivity (withContext s (setPlane s.ctx i bytes)) (.running input w (stageAfterPlane i))) := by
  refine finishPlane_ok.2 ⟨bytes, ?_, rfl⟩
  rw [writeAt_of_le _ (by omega), List.take_zero, List.nil_append, Nat.zero_add, h, List.drop_length, List.append_nil]

/-! ## Fetching -/

theorem fetch_command {s : State} (h : s.activity = .idle ∨ s.activity = .uncreated) :
    fetch s = s.pending.head?.map FetchUnit.command := by
  rcases h with h | h <;> simp [fetch, h]

theorem afterFetch_running {s : State} {input : List Byte} {w : Work} {stage : Stage}
    (h : s.activity = .running input w stage) : afterFetch s = s := by
  simp [afterFetch, h]

end Sys2Proof.Machine
end

