-- ==== Sys2Proof/Laws/Chroma.lean ====
section
/-! SUPPORT. The loops of UPS: what the array holds after a number of columns and rows (R150). -/

namespace Sys2Proof.Machine

/-- Two positions given as row and column are equal only when both agree. -/
theorem row_col_lt {m y y' : Nat} (h : y < y') : y * m + m ≤ y' * m := by
  calc y * m + m = (y + 1) * m := by ring
    _ ≤ y' * m := Nat.mul_le_mul_right m h

/-- A two-element window at row `y'`, column `c'`, inside one row. -/
theorem in_window_iff {m y y' c c' : Nat} (hc : c < m) (hc' : c' + 2 ≤ m) :
    (y' * m + c' ≤ y * m + c ∧ y * m + c < y' * m + c' + 2) ↔ y = y' ∧ c' ≤ c ∧ c < c' + 2 := by
  constructor
  · rintro ⟨h1, h2⟩
    rcases Nat.lt_trichotomy y y' with h | rfl | h
    · have := row_col_lt (m := m) h; omega
    · omega
    · have := row_col_lt (m := m) h; omega
  · rintro ⟨rfl, h1, h2⟩; omega

/-- The part of the output that is filled when rows before `r` and, in row `r`, columns before `k` have been read. -/
def upsFilled (a : List Sample) (w2 r k : Nat) (b : List Sample) : Prop :=
  b.length = 4 * a.length ∧
  ∀ y c, c < 2 * w2 → y < 2 * r ∨ (y < 2 * r + 2 ∧ c < 2 * k) →
    b[y * (2 * w2) + c]? = a[y / 2 * w2 + c / 2]?

theorem upsSample_spec {sp : Space} {a b : List Sample} {w2 rows : Nat} {w : Work}
    (hlen : a.length = rows * w2) (hr : w.r < rows) (hk : w.k < w2) (hb : upsFilled a w2 w.r w.k b) :
    ∃ b', upsSample sp a w2 w b = .ok b' ∧ upsFilled a w2 w.r (w.k + 1) b' := by
  have hra : w.r * w2 + w.k < a.length := by
    have := row_col_lt (m := w2) hr; omega
  have hsize : (2 * w.r + 1) * (2 * w2) + 2 * w.k + 2 ≤ b.length := by
    have h1 := row_col_lt (m := w2) hr
    have h2 : (2 * w.r + 1) * (2 * w2) = 4 * (w.r * w2) + 2 * w2 := by ring
    rw [hb.1, hlen, h2]; omega
  have hsize' : 2 * w.r * (2 * w2) + 2 * w.k + 2 ≤ b.length := by
    have h2 : (2 * w.r + 1) * (2 * w2) = 2 * w.r * (2 * w2) + 2 * w2 := by ring
    omega
  obtain ⟨b1, h1⟩ : ∃ b1, writeAt sp b (2 * w.r * (2 * w2) + 2 * w.k)
      [a[w.r * w2 + w.k], a[w.r * w2 + w.k]] = .ok b1 := by
    refine writeAt_fits _ _ _ _ ?_
    simpa using hsize'
  have hl1 := writeAt_length h1
  obtain ⟨b2, h2⟩ : ∃ b2, writeAt sp b1 ((2 * w.r + 1) * (2 * w2) + 2 * w.k)
      [a[w.r * w2 + w.k], a[w.r * w2 + w.k]] = .ok b2 := by
    refine writeAt_fits _ _ _ _ ?_
    rw [hl1]
    simpa using hsize
  refine ⟨b2, ?_, by rw [writeAt_length h2, hl1, hb.1], fun y c hc hdone => ?_⟩
  · simp only [upsSample, readAt_of_lt sp hra, ok_bind, h1, h2]
  · have hpair : ∀ n, n < 2 → [a[w.r * w2 + w.k], a[w.r * w2 + w.k]][n]? = some a[w.r * w2 + w.k] := by
      intro n hn
      rcases n with _ | _ | n
      · rfl
      · rfl
      · omega
    rw [writeAt_get h2, writeAt_get h1]
    simp only [List.length_cons, List.length_nil, Nat.zero_add]
    have hw2 := in_window_iff (y := y) (y' := 2 * w.r + 1) hc (show 2 * w.k + 2 ≤ 2 * w2 by omega)
    have hw1 := in_window_iff (y := y) (y' := 2 * w.r) hc (show 2 * w.k + 2 ≤ 2 * w2 by omega)
    split
    · next hin =>
      obtain ⟨rfl, h3, h4⟩ := hw2.1 (by omega)
      rw [hpair _ (by omega), show (2 * w.r + 1) / 2 = w.r by omega, show c / 2 = w.k by omega,
        List.getElem?_eq_getElem hra]
    · next hout2 =>
      split
      · next hin =>
        obtain ⟨rfl, h3, h4⟩ := hw1.1 (by omega)
        rw [hpair _ (by omega), show 2 * w.r / 2 = w.r by omega, show c / 2 = w.k by omega,
          List.getElem?_eq_getElem hra]
      · next hout1 =>
        refine hb.2 y c hc ?_
        by_contra hnot
        have hy : y = 2 * w.r ∨ y = 2 * w.r + 1 := by omega
        rcases hy with rfl | rfl
        · exact hout1 (by have := hw1.2 ⟨rfl, by omega, by omega⟩; omega)
        · exact hout2 (by have := hw2.2 ⟨rfl, by omega, by omega⟩; omega)

theorem upsColumns_spec {sp : Space} {a : List Sample} {w2 rows : Nat} (hlen : a.length = rows * w2) :
    ∀ (n : Nat) (w : Work) (b : List Sample), w.r < rows → w.k + n = w2 → upsFilled a w2 w.r w.k b →
      ∃ w' b', upsColumns sp a w2 n w b = .ok (w', b') ∧ w' = { w with k := w2 } ∧ upsFilled a w2 w.r w2 b'
  | 0, w, b, _, hk, hb => by
    obtain rfl : w.k = w2 := by omega
    exact ⟨w, b, rfl, rfl, hb⟩
  | n + 1, w, b, hr, hk, hb => by
    obtain ⟨b1, h1, hb1⟩ := upsSample_spec (sp := sp) hlen hr (by omega) hb
    obtain ⟨w', b', h2, hw', hb'⟩ := upsColumns_spec (sp := sp) hlen n { w with k := w.k + 1 } b1 hr (by simp; omega) hb1
    exact ⟨w', b', by simp only [upsColumns, h1, ok_bind, h2], hw', hb'⟩

theorem upsRows_spec {sp : Space} {a : List Sample} {w2 rows : Nat} (hlen : a.length = rows * w2) :
    ∀ (n : Nat) (w : Work) (b : List Sample), w.r + n = rows → upsFilled a w2 w.r 0 b →
      ∃ w' b', upsRows sp a w2 n w b = .ok (w', b') ∧ w' = { w with r := w'.r, k := w'.k } ∧
        upsFilled a w2 rows 0 b'
  | 0, w, b, hr, hb => by
    obtain rfl : w.r = rows := by omega
    exact ⟨w, b, rfl, rfl, hb⟩
  | n + 1, w, b, hr, hb => by
    obtain ⟨w1, b1, h1, rfl, hb1⟩ := upsColumns_spec (sp := sp) hlen w2 { w with k := 0 } b (by simp; omega)
      (by simp) hb
    have hb1' : upsFilled a w2 (w.r + 1) 0 b1 :=
      ⟨hb1.1, fun y c hc hy => hb1.2 y c hc (by simp only at hy ⊢; omega)⟩
    obtain ⟨w', b', h2, hw', hb'⟩ := upsRows_spec (sp := sp) hlen n { w with k := w2, r := w.r + 1 } b1 (by simp; omega) hb1'
    exact ⟨w', b', by simp only [upsRows, h1, ok_bind, h2], by rw [hw'], hb'⟩

/-- UPS on a whole number of rows: the closed form of R150, and only the loop indices move. -/
theorem upsample_spec (sp : Space) {a : List Sample} {w2 rows : Nat} (w : Work) {fresh : List Sample}
    (hw2 : 1 ≤ w2) (hlen : a.length = rows * w2) (hf : fresh.length = 4 * a.length) :
    ∃ w' b, upsample sp a w2 w fresh = .ok (w', b) ∧ w' = { w with r := w'.r, k := w'.k } ∧
      b.length = 4 * a.length ∧
      ∀ y c, c < 2 * w2 → y < 2 * rows → b[y * (2 * w2) + c]? = a[y / 2 * w2 + c / 2]? := by
  have hrows : a.length / w2 = rows := by rw [hlen]; exact Nat.mul_div_cancel _ hw2
  obtain ⟨w', b, h, hw', hb⟩ := upsRows_spec (sp := sp) hlen rows { w with r := 0 } fresh (by simp)
    ⟨hf, fun y c _ hy => by simp at hy⟩
  exact ⟨w', b, by rw [upsample, hrows, h], by rw [hw'], hb.1, fun y c hc hy => hb.2 y c hc (.inl hy)⟩

/-- What a sample of CLX is worth, as an integer: the low 9 bits of `c * 2^s` in two's complement (R140). -/
theorem expandByte_toInt (level c : Byte) :
    (expandByte level c).toInt =
      if c.toNat * 2 ^ level.toNat % 512 < 256 then ((c.toNat * 2 ^ level.toNat % 512 : Nat) : Int)
      else ((c.toNat * 2 ^ level.toNat % 512 : Nat) : Int) - 512 := by
  unfold expandByte
  rw [BitVec.toInt_signExtend_of_le (by omega), BitVec.toInt_eq_toNat_cond, BitVec.toNat_ofNat]
  generalize c.toNat * 2 ^ level.toNat % 2 ^ 9 = v
  split <;> split <;> omega

@[simp] theorem expandPlane_length (level : Byte) (bytes : List Byte) :
    (expandPlane level bytes).length = bytes.length := by simp [expandPlane]

end Sys2Proof.Machine
end

