-- ==== Sys2Proof/Laws/Convert.lean ====
section
/-! SUPPORT. The loop of CSC: the source index in closed form (R161) and what OUT holds after a number of pixels (R160). -/

namespace Sys2Proof.Machine

/-- `W + pad`: the length of a source row (R161). -/
theorem width_add_rowPad (sub : Bool) (w : Nat) : w + rowPad sub w = if sub then pad8 w else w := by
  cases sub <;> simp [rowPad, pad8]; omega

/-- The source index moves by one inside a row and skips the padding at a row's end: the loop of R160 follows R161. -/
theorem refIndex_succ (sub : Bool) {w : Nat} (hw : 0 < w) (i : Nat) :
    refIndex sub w (i + 1) =
      if (i + 1) % w = 0 then refIndex sub w i + 1 + rowPad sub w else refIndex sub w i + 1 := by
  unfold refIndex
  generalize rowPad sub w = pad
  have hdm := Nat.div_add_mod i w
  have hlt := Nat.mod_lt i hw
  by_cases hz : i % w + 1 = w
  · have h1 : i + 1 = w * (i / w + 1) := by rw [Nat.mul_add, Nat.mul_one]; omega
    rw [h1, Nat.mul_mod_right, if_pos rfl, Nat.mul_div_cancel_left _ hw, Nat.add_mul]
    omega
  · have h1 : i + 1 = w * (i / w) + (i % w + 1) := by omega
    have hm : (i + 1) % w = i % w + 1 := by
      rw [h1, Nat.mul_add_mod]; exact Nat.mod_eq_of_lt (by omega)
    have hd : (i + 1) / w = i / w := by
      rw [h1, Nat.mul_add_div hw, Nat.div_eq_of_lt (by omega : i % w + 1 < w)]; rfl
    rw [hm, hd, if_neg (by omega)]; omega

/-- The source index of every pixel lies inside `h` rows of `W + pad` (R161). -/
theorem refIndex_lt (sub : Bool) {w h i : Nat} (hi : i < w * h) : refIndex sub w i < h * (w + rowPad sub w) := by
  have hw : 0 < w := Nat.pos_of_ne_zero (by rintro rfl; simp at hi)
  have hd : i / w < h := Nat.div_lt_of_lt_mul hi
  have hm := Nat.mod_lt i hw
  have := row_col_lt (m := w + rowPad sub w) hd
  unfold refIndex
  omega

/-- The four bytes of pixel `i` (R160). -/
def pixelAt (c : Context) (i : Nat) : List Byte :=
  pixelBytes (c.plane.y.getD (refIndex c.subsampling c.width.toNat i) 0)
    (c.co.getD (refIndex c.subsampling c.width.toNat i) 0)
    (c.cg.getD (refIndex c.subsampling c.width.toNat i) 0) (c.plane.alpha.getD i 0)

@[simp] theorem pixelBytes_length (y : Byte) (co cg : Sample) (a : Byte) : (pixelBytes y co cg a).length = 4 := rfl
@[simp] theorem pixelAt_length (c : Context) (i : Nat) : (pixelAt c i).length = 4 := rfl

/-- The arrays CSC reads reach as far as its indices do (R161). -/
structure cscReady (c : Context) : Prop where
  width : 0 < c.width.toNat
  luma : c.height.toNat * (c.width.toNat + rowPad c.subsampling c.width.toNat) ≤ c.plane.y.length
  co : c.height.toNat * (c.width.toNat + rowPad c.subsampling c.width.toNat) ≤ c.co.length
  cg : c.height.toNat * (c.width.toNat + rowPad c.subsampling c.width.toNat) ≤ c.cg.length
  alpha : c.width.toNat * c.height.toNat ≤ c.plane.alpha.length

/-- OUT when the pixels before `n` are written. -/
def outFilled (c : Context) (n : Nat) (out : List Byte) : Prop :=
  out.length = c.width.toNat * c.height.toNat * 4 ∧ ∀ i < n, ∀ q < 4, out[4 * i + q]? = (pixelAt c i)[q]?

/-- The loop registers before pixel `w.i` (R160). -/
def cscCursor (c : Context) (w : Work) : Prop :=
  (w.i = 0 ∧ w.j = 0) ∨ (0 < w.i ∧ w.j = refIndex c.subsampling c.width.toNat (w.i - 1) + 1)

theorem cscPixel_spec {c : Context} (hr : cscReady c) {w : Work} {out : List Byte}
    (hi : w.i < c.width.toNat * c.height.toNat) (hw : cscCursor c w) (ho : outFilled c w.i out) :
    ∃ out', cscPixel c (rowPad c.subsampling c.width.toNat) w out =
        .ok ({ w with i := w.i + 1, j := refIndex c.subsampling c.width.toNat w.i + 1 }, out') ∧
      outFilled c (w.i + 1) out' := by
  have hj : (if 0 < w.i ∧ w.i % c.width.toNat = 0 then w.j + rowPad c.subsampling c.width.toNat else w.j) =
      refIndex c.subsampling c.width.toNat w.i := by
    rcases hw with ⟨h0, h1⟩ | ⟨h0, h1⟩
    · simp [h0, h1, refIndex]
    · obtain ⟨m, hm⟩ : ∃ m, w.i = m + 1 := ⟨w.i - 1, by omega⟩
      rw [hm] at h1 ⊢
      rw [refIndex_succ _ hr.width, h1]
      simp
  have hlt := refIndex_lt c.subsampling hi
  have hy := readAt_getD (.plane .y) (Nat.lt_of_lt_of_le hlt hr.luma) 0
  have hco := readAt_getD .co (Nat.lt_of_lt_of_le hlt hr.co) 0
  have hcg := readAt_getD .cg (Nat.lt_of_lt_of_le hlt hr.cg) 0
  have ha := readAt_getD (.plane .alpha) (Nat.lt_of_lt_of_le hi hr.alpha) 0
  obtain ⟨out', hwr⟩ := writeAt_fits .out out (pixelAt c w.i) (4 * w.i) (by
    rw [ho.1, pixelAt_length]; omega)
  refine ⟨out', ?_, by rw [writeAt_length hwr, ho.1], fun i hi' q hq => ?_⟩
  · have hwr' : writeAt .out out (4 * w.i) (pixelBytes _ _ _ _) = .ok out' := hwr
    simp only [cscPixel, hj, hy, hco, hcg, ha, ok_bind, hwr', pure_eq_ok]
  · rw [writeAt_get hwr, pixelAt_length]
    split
    · obtain rfl : i = w.i := by omega
      congr 1; omega
    · exact ho.2 i (by omega) q hq

theorem cscPixels_spec {c : Context} (hr : cscReady c) : ∀ (n : Nat) (w : Work) (out : List Byte),
    w.i + n = c.width.toNat * c.height.toNat → cscCursor c w → outFilled c w.i out →
    ∃ w' out', cscPixels c (rowPad c.subsampling c.width.toNat) n w out = .ok (w', out') ∧
      outFilled c (c.width.toNat * c.height.toNat) out'
  | 0, w, out, hn, _, ho => ⟨w, out, rfl, by rw [← hn]; exact ho⟩
  | n + 1, w, out, hn, hw, ho => by
    obtain ⟨out1, h1, ho1⟩ := cscPixel_spec hr (by omega) hw ho
    obtain ⟨w', out', h2, ho'⟩ := cscPixels_spec hr n
      { w with i := w.i + 1, j := refIndex c.subsampling c.width.toNat w.i + 1 } out1 (by simp; omega)
      (.inr ⟨Nat.succ_pos _, rfl⟩) ho1
    exact ⟨w', out', by simp only [cscPixels, h1, ok_bind, h2], ho'⟩

/-- CSC on arrays that reach far enough writes every pixel (R160, R164). -/
theorem convertImage_spec {c : Context} (hr : cscReady c) (w : Work)
    (ho : c.out.length = c.width.toNat * c.height.toNat * 4) :
    ∃ out, convertImage c w = .ok out ∧ outFilled c (c.width.toNat * c.height.toNat) out := by
  obtain ⟨w', out, h, hf⟩ := cscPixels_spec hr (c.width.toNat * c.height.toNat) { w with i := 0, j := 0 } c.out
    (by simp) (.inl ⟨rfl, rfl⟩) ⟨ho, fun i hi => by simp at hi⟩
  exact ⟨out, by simp only [convertImage, h, ok_bind, pure_eq_ok], hf⟩

end Sys2Proof.Machine
end

