-- ==== Sys2Proof/Laws/Decode.lean ====
section
/-! SUPPORT. Multi-byte values: taking a 32-bit value apart and assembling it are inverse, in both byte orders (R53). -/

namespace Sys2Proof

@[simp] theorem bytes32_length (bo : ByteOrder) (n : U32) : (bytes32 bo n).length = 4 := by cases bo <;> rfl

theorem bytes32_assemble32 (bo : ByteOrder) (b0 b1 b2 b3 : Byte) :
    bytes32 bo (assemble32 bo b0 b1 b2 b3) = [b0, b1, b2, b3] := by
  have h0 := b0.isLt
  have h1 := b1.isLt
  have h2 := b2.isLt
  have h3 := b3.isLt
  cases bo <;> simp only [assemble32, bytes32, byteOf32, List.cons.injEq, and_true] <;>
    refine ⟨?_, ?_, ?_, ?_⟩ <;> apply BitVec.eq_of_toNat_eq <;> simp <;> omega

theorem assemble32_bytes32 (bo : ByteOrder) (n : U32) :
    ∃ b0 b1 b2 b3, bytes32 bo n = [b0, b1, b2, b3] ∧ assemble32 bo b0 b1 b2 b3 = n := by
  have hn := n.isLt
  cases bo <;> refine ⟨_, _, _, _, rfl, ?_⟩ <;> apply BitVec.eq_of_toNat_eq <;>
    simp [assemble32, byteOf32] <;> omega

/-- A byte read right after a known part of the stream. -/
theorem memRead8_append (bs after : List Byte) (j : Nat) :
    memRead8 (bs ++ after) (bs.length + j) = memRead8 after j := by
  simp [memRead8, List.getElem?_append_right]

/-- A 4-byte value read right after a known part of the stream. -/
theorem memRead32_append (bo : ByteOrder) (bs after : List Byte) (n : U32) :
    memRead32 bo (bs ++ (bytes32 bo n ++ after)) bs.length = n := by
  obtain ⟨b0, b1, b2, b3, hb, hn⟩ := assemble32_bytes32 bo n
  have h0 := memRead8_append bs (bytes32 bo n ++ after) 0
  rw [Nat.add_zero] at h0
  rw [memRead32, h0, memRead8_append, memRead8_append, memRead8_append, hb]
  exact hn

end Sys2Proof
end

