-- ==== Sys2Proof/Laws/Header.lean ====
section
/-! SUPPORT. The steps of PROCESS_MESSAGE from `locate_planes` to `allocate`, said once as a chain of cases (R173). -/

namespace Sys2Proof.Machine

/-- The dimensions are supported: neither is 0 and every size is at most MAX_SIZE (R105). -/
def dimensionsOk (P : Params) (c : Context) : Prop :=
  c.width ≠ 0 ∧ c.height ≠ 0 ∧ ∀ n ∈ checkedSizes c.subsampling c.width.toNat c.height.toNat, n ≤ P.maxSize

/-- A known environment grants what it does not deny. -/
theorem canAllocate_denying {P : Params} {requests : List (List Nat)} (h : P.allocation = .denying requests)
    (need : List Nat) : canAllocate P need = decide (need ∉ requests) := by
  simp only [canAllocate, h, ← List.contains_iff_mem]
  cases requests.contains need <;> rfl

/-- An open environment answers with the uninterpreted function. -/
theorem canAllocate_unknown {P : Params} (h : P.allocation = .unknown) (need : List Nat) :
    canAllocate P need = Config.canAllocate need := by simp only [canAllocate, h]

theorem checkDimensions_ok {P : Params} {c : Context} (h : dimensionsOk P c) : checkDimensions P c = .ok () := by
  obtain ⟨hw, hh, hs⟩ := h
  rw [checkDimensions, if_neg (not_or.2 ⟨hw, hh⟩), if_neg]
  simpa using hs

theorem checkDimensions_error {P : Params} {c : Context} (h : ¬ dimensionsOk P c) :
    checkDimensions P c = .error .unsupportedDimensions := by
  unfold checkDimensions
  split
  · rfl
  · next h0 =>
    rw [if_pos]
    obtain ⟨hw, hh⟩ := not_or.1 h0
    by_contra hany
    exact h ⟨hw, hh, by simpa using hany⟩

/-- The buffers `allocate` makes for a context whose target sizes are computed. -/
def allocated (draw : Nat) (c : Context) : Context :=
  { c with
    plane := ⟨freeBytes draw 0 c.planeTargetSize.y, freeBytes draw 1 c.planeTargetSize.co,
      freeBytes draw 2 c.planeTargetSize.cg, freeBytes draw 3 c.planeTargetSize.alpha⟩
    co := freeSamples draw 4 c.planeTargetSize.co
    cg := freeSamples draw 5 c.planeTargetSize.cg
    out := List.replicate (c.width.toNat * c.height.toNat * 4) 0 }

theorem allocated_plane_length (draw : Nat) (c : Context) (i : PlaneId) :
    (planeGet (allocated draw c).plane i).length = planeGet c.planeTargetSize i := by
  cases i <;> simp [allocated, planeGet]

theorem allocate_granted {P : Params} (draw : Nat) {c : Context}
    (h : canAllocate P (neededSizes c.subsampling c.width.toNat c.height.toNat) = true) :
    allocate P draw (computeSizes c) = .ok (allocated draw (computeSizes c)) := by
  exact if_pos h

theorem allocate_denied {P : Params} (draw : Nat) {c : Context}
    (h : canAllocate P (neededSizes c.subsampling c.width.toNat c.height.toNat) = false) :
    allocate P draw (computeSizes c) = .error .allocationFailure := by
  exact if_neg (Bool.eq_false_iff.1 h)

/-- The payload does not fit: MalformedHeader (R104). -/
theorem prepare_malformed {P : Params} {draw inLen : Nat} {c : Context}
    (h : inLen < 20 + payloadTotal c.planeByteCount) :
    prepare P draw inLen c = .error .malformedHeader := by
  simp only [prepare, locatePlanes, gt_iff_lt, if_pos h]

/-- The payload fits and the dimensions do not: UnsupportedDimensions (R105). -/
theorem prepare_unsupported {P : Params} {draw inLen : Nat} {c : Context}
    (hl : 20 + payloadTotal c.planeByteCount ≤ inLen) (hd : ¬ dimensionsOk P c) :
    prepare P draw inLen c = .error .unsupportedDimensions := by
  simp only [prepare, locatePlanes, gt_iff_lt, if_neg (Nat.not_lt.2 hl), checkDimensions_error hd]

/-- Everything fits but the environment denies the buffers: AllocationFailure (R107). -/
theorem prepare_denied {P : Params} {draw inLen : Nat} {c : Context}
    (hl : 20 + payloadTotal c.planeByteCount ≤ inLen) (hd : dimensionsOk P c)
    (hn : canAllocate P (neededSizes c.subsampling c.width.toNat c.height.toNat) = false) :
    prepare P draw inLen c = .error .allocationFailure := by
  simp only [prepare, locatePlanes, gt_iff_lt, if_neg (Nat.not_lt.2 hl), checkDimensions_ok hd,
    allocate_denied draw hn]

/-- Everything fits: the bases of R104 and the buffers of R107. -/
theorem prepare_ok {P : Params} {draw inLen : Nat} {c : Context}
    (hl : 20 + payloadTotal c.planeByteCount ≤ inLen) (hd : dimensionsOk P c)
    (hn : canAllocate P (neededSizes c.subsampling c.width.toNat c.height.toNat) = true) :
    prepare P draw inLen c = .ok (planeBases c.planeByteCount, allocated draw (computeSizes c)) := by
  simp only [prepare, locatePlanes, gt_iff_lt, if_neg (Nat.not_lt.2 hl), checkDimensions_ok hd,
    allocate_granted draw hn]

/-- The only way `prepare` answers: every condition held, and this is the answer. -/
theorem prepare_inv {P : Params} {draw inLen : Nat} {c c' : Context} {base : PerPlane Nat}
    (h : prepare P draw inLen c = .ok (base, c')) :
    20 + payloadTotal c.planeByteCount ≤ inLen ∧ dimensionsOk P c ∧
      canAllocate P (neededSizes c.subsampling c.width.toNat c.height.toNat) = true ∧
      base = planeBases c.planeByteCount ∧ c' = allocated draw (computeSizes c) := by
  by_cases hl : 20 + payloadTotal c.planeByteCount ≤ inLen
  · by_cases hd : dimensionsOk P c
    · by_cases hn : canAllocate P (neededSizes c.subsampling c.width.toNat c.height.toNat) = false
      · simp [prepare_denied hl hd hn] at h
      · have hn := Bool.eq_true_of_not_eq_false hn
        rw [prepare_ok hl hd hn] at h
        simp only [Except.ok.injEq, Prod.mk.injEq] at h
        exact ⟨hl, hd, hn, h.1.symm, h.2.symm⟩
    · simp [prepare_unsupported hl hd] at h
  · simp [prepare_malformed (Nat.lt_of_not_le hl)] at h

end Sys2Proof.Machine
end

