-- ==== Sys2Proof/Laws/Planes.lean ====
section
/-! SUPPORT. The plane-mode guards as propositions, and their agreement with the decoder (R73). -/

namespace Sys2Proof.Machine

theorem selectsFill_iff (c : Context) (i : PlaneId) :
    selectsFill c i = true ↔ i = .alpha ∧ (planeGet c.planeByteCount i).toNat = 0 := by
  simp [selectsFill]

theorem selectsRle_iff (c : Context) (i : PlaneId) :
    selectsRle c i = true ↔
      selectsFill c i = false ∧ (planeGet c.planeByteCount i).toNat < planeGet c.planeTargetSize i := by
  simp [selectsRle]

theorem selectsRaw_iff (c : Context) (i : PlaneId) :
    selectsRaw c i = true ↔
      selectsFill c i = false ∧ planeGet c.planeTargetSize i ≤ (planeGet c.planeByteCount i).toNat := by
  simp [selectsRaw]

/-- No plane but an Alpha plane with byte count 0 is filled. -/
theorem selectsFill_false {c : Context} {i : PlaneId} (h : i = .alpha → c.planeByteCount.alpha ≠ 0) :
    selectsFill c i = false := by
  rw [← Bool.not_eq_true, selectsFill_iff]
  rintro ⟨rfl, h0⟩
  exact h rfl (BitVec.eq_of_toNat_eq (by simpa [planeGet] using h0))

/-- The decoder picks the mode whose guard holds: exactly one does. -/
theorem decodePlane_eq (c : Context) (i : PlaneId) :
    decodePlane i (planeGet c.planeByteCount i).toNat (planeGet c.planeTargetSize i) =
      if selectsFill c i then .planeFill else if selectsRle c i then .planeRle i else .planeRaw i := by
  unfold decodePlane
  by_cases hf : selectsFill c i = true
  · rw [if_pos hf, if_pos ((selectsFill_iff c i).1 hf)]
  · rw [if_neg hf, if_neg (mt (selectsFill_iff c i).2 hf)]
    simp only [selectsRle_iff, Bool.not_eq_true _ ▸ hf, true_and]

end Sys2Proof.Machine
end

