-- ==== Sys2Proof/Laws/Exec.lean ====
section
/-! SUPPORT. What executing an instruction can do, said once: the inversion lemmas every whole-machine rule cites. -/

namespace Sys2Proof.Machine

/-- The fields no unit of a running command writes unless it ends the command. -/
def keepsHostFields (c c' : Context) : Prop :=
  c'.width = c.width ∧ c'.height = c.height ∧ c'.status = c.status ∧
  c'.outputValid = c.outputValid ∧ c'.buffersValid = c.buffersValid

/-- The command goes on: same message, another stage or cursor. -/
def goesOn (s t : State) (input : List Byte) : Prop :=
  (∃ w' stage', t.activity = .running input w' stage') ∧ keepsHostFields s.ctx t.ctx ∧
  t.pending = s.pending ∧ t.params = s.params ∧ s.draws ≤ t.draws

theorem goesOn_of {s : State} {c : Context} {input : List Byte} {w' : Work} {stage' : Stage}
    (hc : keepsHostFields s.ctx c) : goesOn s (withActivity (withContext s c) (.running input w' stage')) input :=
  ⟨⟨w', stage', rfl⟩, hc, rfl, rfl, Nat.le_refl _⟩

theorem goesOn_countDraw {s t : State} {input : List Byte} (h : goesOn s t input) : goesOn s (countDraw t) input :=
  ⟨h.1, h.2.1, h.2.2.1, h.2.2.2.1, Nat.le_succ_of_le h.2.2.2.2⟩

theorem emitRun_goesOn {s t : State} {input : List Byte} {w : Work} {i : PlaneId} {n : Nat}
    (h : emitRun s input w i n = .next t) : goesOn s t input := by
  obtain ⟨a, -, rfl⟩ := emitRun_next.1 h
  exact goesOn_of ⟨rfl, rfl, rfl, rfl, rfl⟩

theorem emitChecked_goesOn {s t : State} {input : List Byte} {w : Work} {i : PlaneId} {n : Nat}
    (h : emitChecked s input w i n = .next t) :
    goesOn s t input ∨ t = raiseError .corruptRunLength s := by
  unfold emitChecked at h
  split at h
  · cases h; exact .inr rfl
  · exact .inl (emitRun_goesOn h)

theorem finishPlane_goesOn {s t : State} {input : List Byte} {w : Work} {i : PlaneId} {bytes : List Byte}
    (h : finishPlane s input w i bytes = .ok t) : goesOn s t input := by
  obtain ⟨a, -, rfl⟩ := finishPlane_ok.1 h
  exact goesOn_of ⟨rfl, rfl, rfl, rfl, rfl⟩

/-- What a unit of a running command can do: the command goes on, or an error ends it, or it is CSC and commits. -/
theorem exec_unit_next {i : Instr} {s t : State} (hc : isCommand i = false) (h : exec i s = .next t) :
    ∃ input w stage, s.activity = .running input w stage ∧
      (goesOn s t input ∨ (∃ k, t = raiseError k s) ∨
        (i = .csc ∧ stage = .csc ∧ ∃ out, t = commit (withContext s (setOut s.ctx out)))) := by
  cases i with
  | newContext => cases hc
  | setDimensions _ _ => cases hc
  | processMessage _ => cases hc
  | reserved => cases hc
  | hdr a b c d l sub x0 x1 =>
    simp only [exec, execHdr] at h
    split at h
    · next input w hact =>
      refine ⟨input, w, .header, hact, ?_⟩
      split at h
      · cases h; exact .inr (.inl ⟨_, rfl⟩)
      · split at h
        · cases h; exact .inr (.inl ⟨_, rfl⟩)
        · next base c' hp =>
          obtain ⟨-, -, -, -, rfl⟩ := prepare_inv hp
          cases h
          exact .inl (goesOn_countDraw (goesOn_of ⟨rfl, rfl, rfl, rfl, rfl⟩))
    · cases h
  | planeFill =>
    simp only [exec, execPlaneFill] at h
    split at h
    · next input w i hact =>
      refine ⟨input, w, _, hact, .inl ?_⟩
      split at h
      · exact finishPlane_goesOn (answerOf_next.1 h)
      · cases h
    · cases h
  | planeRle i =>
    simp only [exec, execPlaneRle] at h
    split at h
    · next input w i' hact =>
      refine ⟨input, w, _, hact, .inl ?_⟩
      split at h
      · cases h; exact ⟨⟨_, _, rfl⟩, ⟨rfl, rfl, rfl, rfl, rfl⟩, rfl, rfl, Nat.le_refl _⟩
      · cases h
    · cases h
  | planeRaw i =>
    simp only [exec, execPlaneRaw] at h
    split at h
    · next input w i' hact =>
      refine ⟨input, w, _, hact, .inl ?_⟩
      split at h
      · obtain ⟨bytes, -, hf⟩ := bind_ok.1 (answerOf_next.1 h)
        exact finishPlane_goesOn hf
      · cases h
    · cases h
  | lit5 v =>
    simp only [exec, execLit5] at h
    obtain ⟨input, w, i, hact, -, ⟨-, hr⟩ | rfl⟩ := inTokenLoop_next h
    · exact ⟨input, w, _, hact, .inl (emitRun_goesOn hr)⟩
    · exact ⟨input, w, _, hact, .inr (.inl ⟨_, rfl⟩)⟩
  | lit v =>
    simp only [exec, execLit] at h
    obtain ⟨input, w, i, hact, -, ⟨-, hr⟩ | rfl⟩ := inTokenLoop_next h
    · exact ⟨input, w, _, hact, .inl (emitRun_goesOn hr)⟩
    · exact ⟨input, w, _, hact, .inr (.inl ⟨_, rfl⟩)⟩
  | runs v len =>
    simp only [exec, execRuns] at h
    obtain ⟨input, w, i, hact, -, ⟨-, hr⟩ | rfl⟩ := inTokenLoop_next h
    · obtain hg | rfl := emitChecked_goesOn hr
      · exact ⟨input, w, _, hact, .inl hg⟩
      · exact ⟨input, w, _, hact, .inr (.inl ⟨_, rfl⟩)⟩
    · exact ⟨input, w, _, hact, .inr (.inl ⟨_, rfl⟩)⟩
  | runl v n =>
    simp only [exec, execRunl] at h
    obtain ⟨input, w, i, hact, -, ⟨-, hr⟩ | rfl⟩ := inTokenLoop_next h
    · obtain hg | rfl := emitChecked_goesOn hr
      · exact ⟨input, w, _, hact, .inl hg⟩
      · exact ⟨input, w, _, hact, .inr (.inl ⟨_, rfl⟩)⟩
    · exact ⟨input, w, _, hact, .inr (.inl ⟨_, rfl⟩)⟩
  | trail a b c d =>
    simp only [exec, execTrail] at h
    obtain ⟨input, w, i, hact, -, ⟨-, hr⟩ | rfl⟩ := inTokenLoop_next h
    · refine ⟨input, w, _, hact, ?_⟩
      split at hr
      · obtain ⟨x, -, hx⟩ := bind_ok.1 (answerOf_next.1 hr)
        cases hx
        exact .inl (goesOn_of ⟨rfl, rfl, rfl, rfl, rfl⟩)
      · cases hr; exact .inr (.inl ⟨_, rfl⟩)
    · exact ⟨input, w, _, hact, .inr (.inl ⟨_, rfl⟩)⟩
  | clx c =>
    simp only [exec, execClx] at h
    split at h
    · next input w c' hact =>
      refine ⟨input, w, _, hact, .inl ?_⟩
      split at h
      · cases h; exact goesOn_of (by cases c <;> exact ⟨rfl, rfl, rfl, rfl, rfl⟩)
      · cases h
    · cases h
  | ups c w2 =>
    simp only [exec, execUps] at h
    split at h
    · next input w c' hact =>
      refine ⟨input, w, _, hact, .inl ?_⟩
      split at h
      · split at h
        · obtain ⟨⟨w', b⟩, -, hx⟩ := bind_ok.1 (answerOf_next.1 h)
          cases hx
          exact goesOn_countDraw (goesOn_of (by cases c <;> exact ⟨rfl, rfl, rfl, rfl, rfl⟩))
        · cases h
      · cases h
    · cases h
  | csc =>
    simp only [exec, execCsc] at h
    split at h
    · next input w hact =>
      refine ⟨input, w, _, hact, .inr (.inr ⟨rfl, rfl, ?_⟩)⟩
      obtain ⟨out, -, hx⟩ := bind_ok.1 (answerOf_next.1 h)
      cases hx
      exact ⟨out, rfl⟩
    · cases h

/-- What a host command can do: it has a next state only between commands. -/
theorem exec_command_next {i : Instr} {s t : State} (hc : isCommand i = true) (h : exec i s = .next t) :
    (i = .newContext ∧ (s.activity = .idle ∨ s.activity = .uncreated) ∧
      t = withActivity (withContext s Context.reset) .idle) ∨
    (s.activity = .idle ∧
      ((∃ w h, i = .setDimensions w h ∧ t = countDraw (withContext s
          (clearValid { invalidate s.params s.draws s.ctx with width := w, height := h }))) ∨
        (∃ input, i = .processMessage input ∧ t = countDraw (withActivity (withContext s (clearValid s.ctx))
          (.running input (unsetWork s.draws) .header))))) := by
  cases i with
  | newContext =>
    simp only [exec, execNewContext] at h
    split at h
    · next ha => cases h; exact .inl ⟨rfl, .inr ha, rfl⟩
    · next ha => cases h; exact .inl ⟨rfl, .inl ha, rfl⟩
    · cases h
  | setDimensions w h' =>
    simp only [exec, execSetDimensions] at h
    split at h
    · cases h
    · next ha => cases h; exact .inr ⟨ha, .inl ⟨w, h', rfl, rfl⟩⟩
    · cases h
  | processMessage input =>
    simp only [exec, execProcessMessage] at h
    split at h
    · cases h
    · next ha => cases h; exact .inr ⟨ha, .inr ⟨input, rfl, rfl⟩⟩
    · cases h
  | reserved => cases h
  | _ => cases hc

end Sys2Proof.Machine
end

