-- ==== Sys2Proof/Laws/Memory.lean ====
section
/-! SUPPORT. The form of the arrays: reset has it, every array operation keeps it, and each stage of a running command leaves
what the next one needs (R30 to R32, R105, R106, R129, R151, R161). -/

namespace Sys2Proof.Machine

/-- The arrays have their form right after reset. -/
theorem reset_memory_wf : Memory.wf State.reset.ctx := fun h => by cases h

/-- The check says what it computes. -/
theorem wfCheck_iff (c : Context) : Memory.wfCheck c = true ↔ Memory.wf c := decide_eq_true_iff

/-- A condition on every plane, at one plane. -/
theorem allPlanes_iff {good : PlaneId → Prop} : allPlanes good ↔ ∀ i, good i :=
  ⟨fun ⟨hy, hco, hcg, ha⟩ i => by cases i <;> assumption, fun h => ⟨h _, h _, h _, h _⟩⟩

/-! ## Writing a plane or a chroma array -/

/-- Writing a plane with an array of the same length keeps the sizes. -/
theorem setPlane_sized {c : Context} {i : PlaneId} {a : List Byte} (h : buffersSized c)
    (ha : a.length = (planeGet c.plane i).length) : buffersSized (setPlane c i a) := by
  obtain ⟨hw, hh, ht, hp, ho⟩ := h
  refine ⟨hw, hh, ht, allPlanes_iff.2 fun j => ?_, ho⟩
  have hj := allPlanes_iff.1 hp j
  show (planeGet (planeSet c.plane i a) j).length = planeGet c.planeTargetSize j
  rw [planeGet_planeSet]
  split
  · next e => subst e; rw [ha, hj]
  · exact hj

/-- Writing CO or CG touches none of the sizes. -/
theorem setChroma_sized {c : Context} {ch : Chroma} {a : List Sample} (h : buffersSized c) :
    buffersSized (setChroma c ch a) := by
  cases ch <;> exact h

/-! ## The arithmetic of the sizes -/

theorem pad8_even (n : Nat) : 2 * (pad8 n / 2) = pad8 n := by unfold pad8; omega
theorem pad2_even (n : Nat) : 2 * (pad2 n / 2) = pad2 n := by unfold pad2; omega
theorem le_pad2 (n : Nat) : n ≤ pad2 n := by unfold pad2; omega
theorem pad8_half_pos {n : Nat} (h : 0 < n) : 1 ≤ pad8 n / 2 := by unfold pad8; omega

theorem toNat_pos {x : U32} (h : x ≠ 0) : 0 < x.toNat :=
  Nat.pos_of_ne_zero fun h0 => h (BitVec.eq_of_toNat_eq (by simpa using h0))

/-- A chroma plane's target size while subsampling is on: `pad2(H) / 2` rows of `pad8(W) / 2` (R106). -/
theorem chroma_target_sub {c : Context} (h : buffersSized c) (hs : c.subsampling = true) (ch : Chroma) :
    planeGet c.planeTargetSize (chromaPlane ch) = pad2 c.height.toNat / 2 * (pad8 c.width.toNat / 2) := by
  rw [h.2.2.1, hs]
  cases ch <;> exact Nat.mul_comm _ _

/-- Four times that is the full resolution (R105, R151). -/
theorem four_chroma_target {c : Context} (h : buffersSized c) (hs : c.subsampling = true) (ch : Chroma) :
    4 * planeGet c.planeTargetSize (chromaPlane ch) = chromaSamples c.subsampling c.width.toNat c.height.toNat := by
  rw [chroma_target_sub h hs, hs]
  show _ = pad8 c.width.toNat * pad2 c.height.toNat
  rw [← pad8_even c.width.toNat, ← pad2_even c.height.toNat]
  generalize pad2 c.height.toNat / 2 = y
  generalize pad8 c.width.toNat / 2 = x
  simp only [Nat.mul_div_cancel_left _ (show 0 < 2 by omega)]
  ring

/-- Without subsampling CLX already gives the full resolution (R151). -/
theorem full_of_expanded {c : Context} {ch : Chroma} (h : buffersSized c) (hs : c.subsampling = false)
    (he : chromaExpanded c ch) : chromaFull c ch := by
  refine ⟨?_, he.2⟩
  rw [he.1, h.2.2.1, hs]
  cases ch <;> rfl

/-- Complete buffers reach as far as CSC reads (R161). -/
theorem cscReady_of_complete {c : Context} (h : buffersComplete c) : cscReady c := by
  obtain ⟨⟨hw, hh, ht, hp, ho⟩, hco, hcg⟩ := h
  have hsize : c.height.toNat * (c.width.toNat + rowPad c.subsampling c.width.toNat) ≤
      chromaSamples c.subsampling c.width.toNat c.height.toNat := by
    rw [width_add_rowPad, chromaSamples]
    cases c.subsampling
    · simp [Nat.mul_comm]
    · simp only [if_pos]
      rw [Nat.mul_comm]
      exact Nat.mul_le_mul_left _ (le_pad2 _)
  refine ⟨toNat_pos hw, ?_, hco.1 ▸ hsize, hcg.1 ▸ hsize, ?_⟩
  · have hy : c.plane.y.length = c.planeTargetSize.y := hp.1
    rw [hy, ht, width_add_rowPad]
    cases c.subsampling <;> simp [targetSizes, Nat.mul_comm]
  · have ha : c.plane.alpha.length = c.planeTargetSize.alpha := hp.2.2.2
    rw [ha, ht]
    cases c.subsampling <;> simp [targetSizes]

/-! ## The samples -/

theorem samplesInRange_iff {a : List Sample} : samplesInRange a ↔ ∀ x ∈ a, sampleInRange x := by
  simp [samplesInRange, List.all_eq_true]

theorem expandByte_inRange (level b : Byte) : sampleInRange (expandByte level b) := by
  unfold sampleInRange
  rw [expandByte_toInt]
  split <;> omega

theorem expandPlane_inRange (level : Byte) (bytes : List Byte) : samplesInRange (expandPlane level bytes) := by
  refine samplesInRange_iff.2 fun x hx => ?_
  obtain ⟨b, -, rfl⟩ := List.mem_map.1 hx
  exact expandByte_inRange level b

/-- Every sample UPS writes is one it has read (R154). -/
theorem upsample_mem {a b : List Sample} {w2 rows : Nat} (hw2 : 1 ≤ w2) (hlen : a.length = rows * w2)
    (hb : b.length = 4 * a.length)
    (h : ∀ y c, c < 2 * w2 → y < 2 * rows → b[y * (2 * w2) + c]? = a[y / 2 * w2 + c / 2]?) :
    ∀ x ∈ b, x ∈ a := by
  intro x hx
  obtain ⟨n, hn⟩ := List.mem_iff_getElem?.1 hx
  have hlt : n < b.length := (List.getElem?_eq_some_iff.1 hn).1
  have hrow : n / (2 * w2) < 2 * rows := by
    refine Nat.div_lt_of_lt_mul ?_
    have : 2 * w2 * (2 * rows) = 4 * (rows * w2) := by ring
    omega
  have hcol : n % (2 * w2) < 2 * w2 := Nat.mod_lt _ (by omega)
  have he := h _ _ hcol hrow
  rw [show n / (2 * w2) * (2 * w2) + n % (2 * w2) = n by rw [Nat.mul_comm]; exact Nat.div_add_mod _ _, hn] at he
  exact List.mem_iff_getElem?.2 ⟨_, he.symm⟩

/-- UPS of the command's own geometry takes an expanded array to full resolution (R150, R151, R152). -/
theorem upsample_full {c : Context} {ch : Chroma} (h : buffersSized c) (hs : c.subsampling = true)
    (he : chromaExpanded c ch) (w : Work) (draw : Nat) :
    upsGeometryOk (chromaGet c ch).length (pad8 c.width.toNat / 2) = true ∧
    ∃ w' b, upsample (chromaSpace ch) (chromaGet c ch) (pad8 c.width.toNat / 2) w
        (freeSamples draw 0 (4 * (chromaGet c ch).length)) = .ok (w', b) ∧
      w' = { w with r := w'.r, k := w'.k } ∧
      b.length = chromaSamples c.subsampling c.width.toNat c.height.toNat ∧ samplesInRange b := by
  have hw2 := pad8_half_pos (toNat_pos h.1)
  have hlen : (chromaGet c ch).length = pad2 c.height.toNat / 2 * (pad8 c.width.toNat / 2) := by
    rw [he.1, chroma_target_sub h hs]
  refine ⟨?_, ?_⟩
  · rw [hlen]
    simp only [upsGeometryOk, Nat.mul_mod_left, decide_true, Bool.and_true, decide_eq_true_eq]
    omega
  · obtain ⟨w', b, hu, hw', hb, hget⟩ := upsample_spec (chromaSpace ch) w hw2 hlen
      (freeSamples_length draw 0 (4 * (chromaGet c ch).length))
    refine ⟨w', b, hu, hw', ?_,
      samplesInRange_iff.2 fun x hx => samplesInRange_iff.1 he.2 x (upsample_mem hw2 hlen hb hget x hx)⟩
    rw [hb, he.1, four_chroma_target h hs]

/-! ## The invariant -/

/-- An error leaves a state that meets the invariant, whatever the state before it (R29, R172). -/
theorem inv_raiseError (k : ErrorKind) (s : State) : Inv (raiseError k s) where
  sizesBounded := allPlanes_iff.2 fun i => unspecify_sizes s.params s.draws s.ctx i
  validTogether := rfl
  validOk := fun h => by cases h
  memory := fun h => by cases h
  running := trivial

/-- A running command with its stage's condition meets the invariant. -/
theorem inv_running {s : State} {input : List Byte} {w : Work} {stage : Stage}
    (hsz : allPlanes fun i => planeGet s.ctx.planeTargetSize i ≤ s.params.maxSize)
    (ho : s.ctx.outputValid = false) (hb : s.ctx.buffersValid = false)
    (hact : s.activity = .running input w stage) (hst : stageInv s.ctx input w stage) : Inv s where
  sizesBounded := hsz
  validTogether := by rw [ho, hb]
  validOk := fun h => by rw [ho] at h; cases h
  memory := fun h => by rw [hb] at h; cases h
  running := by simp only [activityInv, hact]; exact ⟨ho, hb, hst⟩

/-- What the invariant says of a running command. -/
theorem inv_stage {s : State} {input : List Byte} {w : Work} {stage : Stage} (h : Inv s)
    (hact : s.activity = .running input w stage) :
    s.ctx.outputValid = false ∧ s.ctx.buffersValid = false ∧ stageInv s.ctx input w stage := by
  have hr := h.running
  simp only [activityInv, hact] at hr
  exact hr

/-- A finished plane leaves what the next stage needs. -/
theorem stageAfterPlane_inv {c : Context} {input : List Byte} {w : Work} (hb : buffersSized c)
    (hl : planesLocated c input w) (i : PlaneId) : stageInv c input w (stageAfterPlane i) := by
  cases i
  · exact ⟨hb, hl⟩
  · exact ⟨hb, hl⟩
  · exact ⟨hb, hl⟩
  · exact hb

end Sys2Proof.Machine
end

