-- ==== Sys2Proof/Laws/PerInstr.lean ====
section
/-! SUPPORT. Statements made once per instruction: the length of each instruction's stream bytes (R70 to R78, R82). -/

namespace Sys2Proof.Laws.TokenLength

/-- How many stream bytes the opcode table gives an instruction: 20 for HDR, 1, 1, 3, 7 and 4 for the tokens; none for a row
that is selected by counts, by a code or by the pipeline. -/
def streamLength : Instr → Nat
  | .hdr _ _ _ _ _ _ _ _ => 20
  | .planeFill => 0
  | .planeRle _ => 0
  | .planeRaw _ => 0
  | .lit5 _ => 1
  | .lit _ => 1
  | .runs _ _ => 3
  | .runl _ _ => 7
  | .trail _ _ _ _ => 4
  | .clx _ => 0
  | .ups _ _ => 0
  | .csc => 0
  | .newContext => 0
  | .setDimensions _ _ => 0
  | .processMessage _ => 0
  | .reserved => 0

/-- The bytes of the instruction have that length, in both byte orders. -/
def Statement (i : Instr) : Prop := ∀ bo : ByteOrder, (encodeBytes bo i).length = streamLength i

theorem hdr (a b c d : U32) (l sub x0 x1 : Byte) : Statement (.hdr a b c d l sub x0 x1) := fun bo => by simp [encodeBytes, streamLength]
theorem planeFill : Statement .planeFill := fun _ => rfl
theorem planeRle (i : PlaneId) : Statement (.planeRle i) := fun _ => rfl
theorem planeRaw (i : PlaneId) : Statement (.planeRaw i) := fun _ => rfl
theorem lit5 (v : Byte) : Statement (.lit5 v) := fun _ => rfl
theorem lit (v : Byte) : Statement (.lit v) := fun _ => rfl
theorem runs (v len : Byte) : Statement (.runs v len) := fun _ => rfl
theorem runl (v : Byte) (n : U32) : Statement (.runl v n) := fun bo => by simp [encodeBytes, streamLength]
theorem trail (t u w z : Byte) : Statement (.trail t u w z) := fun _ => rfl
theorem clx (c : Chroma) : Statement (.clx c) := fun _ => rfl
theorem ups (c : Chroma) (w2 : Nat) : Statement (.ups c w2) := fun _ => rfl
theorem csc : Statement .csc := fun _ => rfl
theorem newContext : Statement .newContext := fun _ => rfl
theorem setDimensions (w h : U32) : Statement (.setDimensions w h) := fun _ => rfl
theorem processMessage (input : List Byte) : Statement (.processMessage input) := fun _ => rfl
theorem reserved : Statement .reserved := fun _ => rfl

end Sys2Proof.Laws.TokenLength
end

