-- ==== Sys2Proof/Laws/Progress.lean ====
section
/-! SUPPORT. One lemma per stage of a running command: from the stage's condition the step has a next state, and that state
meets the invariant (R51, R59, R102). -/

namespace Sys2Proof.Machine

/-- A state that is running with both valid bits 0 and its sizes bounded: what every stage below starts from. -/
structure RunsAt (s : State) (input : List Byte) (w : Work) (stage : Stage) : Prop where
  act : s.activity = .running input w stage
  sizes : allPlanes fun i => planeGet s.ctx.planeTargetSize i ≤ s.params.maxSize
  out : s.ctx.outputValid = false
  buffers : s.ctx.buffersValid = false
  inv : stageInv s.ctx input w stage

theorem RunsAt.of_inv {s : State} {input : List Byte} {w : Work} {stage : Stage} (h : Inv s)
    (hact : s.activity = .running input w stage) : RunsAt s input w stage := by
  obtain ⟨ho, hb, hst⟩ := inv_stage h hact
  exact ⟨hact, h.sizesBounded, ho, hb, hst⟩

/-- The step of a running command is the meaning of the unit of its stage, or the error of a unit that is cut off. -/
theorem step_running {s : State} {input : List Byte} {w : Work} {stage : Stage} {u : FetchUnit}
    (hact : s.activity = .running input w stage) (hu : fetch s = some u) :
    (∃ i, decode s.params.byteOrder u = .ok i ∧ step s = exec i s) ∨
    (∃ r, decode s.params.byteOrder u = .error r ∧ step s = .next (raiseError (rejectError r) s)) := by
  have hd : step s = match decode s.params.byteOrder u with
      | .ok i => exec i (afterFetch s)
      | .error r => .next (raiseError (rejectError r) s) := by
    simp only [step, hu] <;> rfl
  rw [afterFetch_running hact] at hd
  rcases h : decode s.params.byteOrder u with r | i
  · exact .inr ⟨r, rfl, by rw [hd, h]⟩
  · exact .inl ⟨i, rfl, by rw [hd, h]⟩

/-- The target sizes of supported dimensions are bounded (R29, R105). -/
theorem targetSizes_bounded {P : Params} {c : Context} (h : dimensionsOk P c) (i : PlaneId) :
    planeGet (targetSizes c.subsampling c.width.toNat c.height.toNat) i ≤ P.maxSize := by
  refine h.2.2 _ ?_
  cases i <;> simp [checkedSizes, planeGet]

theorem execHdr_progress {s : State} {input : List Byte} {w : Work} (h : RunsAt s input w .header)
    (a b c d : U32) (l sub x0 x1 : Byte) : ∃ t, exec (.hdr a b c d l sub x0 x1) s = .next t ∧ Inv t := by
  simp only [exec, execHdr, h.act]
  split
  · exact ⟨_, rfl, inv_raiseError _ _⟩
  · split
    · exact ⟨_, rfl, inv_raiseError _ _⟩
    · next base c' hp =>
      obtain ⟨hl, hd, -, rfl, rfl⟩ := prepare_inv hp
      refine ⟨_, rfl, inv_running (allPlanes_iff.2 fun i => targetSizes_bounded hd i) h.out h.buffers rfl ?_⟩
      exact ⟨⟨hd.1, hd.2.1, rfl, allPlanes_iff.2 fun i => allocated_plane_length s.draws _ i,
        List.length_replicate⟩, rfl, hl⟩

/-- A plane written with as many bytes as it has. -/
theorem finishPlane_progress {s : State} {input : List Byte} {w : Work} {i : PlaneId} {stage : Stage}
    (h : RunsAt s input w stage) (hb : buffersSized s.ctx) (hl : planesLocated s.ctx input w) {bytes : List Byte}
    (hlen : bytes.length = planeGet s.ctx.planeTargetSize i) :
    ∃ t, answerOf (finishPlane s input w i bytes) = .next t ∧ Inv t := by
  have hp := allPlanes_iff.1 hb.2.2.2.1 i
  rw [finishPlane_whole s input w i bytes (by rw [hlen, hp])]
  exact ⟨_, rfl, inv_running h.sizes h.out h.buffers rfl
    (stageAfterPlane_inv (setPlane_sized hb (by rw [hlen, hp])) hl i)⟩

/-- The payload of each plane lies inside the message (R104). -/
theorem payload_inside {c : Context} {input : List Byte} {w : Work} (h : planesLocated c input w) (i : PlaneId) :
    planeGet w.base i + (planeGet c.planeByteCount i).toNat ≤ input.length := by
  obtain ⟨hb, hl⟩ := h
  rw [hb]
  simp only [payloadTotal] at hl
  cases i <;> simp only [planeBases, planeGet] <;> omega

/-- Plane `i`: fill, token loop or raw copy (R120 to R123). -/
theorem plane_progress {s : State} {input : List Byte} {w : Work} {i : PlaneId} (h : RunsAt s input w (.plane i)) :
    ∃ t, exec (decodePlane i (planeGet s.ctx.planeByteCount i).toNat (planeGet s.ctx.planeTargetSize i)) s = .next t ∧
      Inv t := by
  obtain ⟨hb, hl⟩ : buffersSized s.ctx ∧ planesLocated s.ctx input w := h.inv
  have hin := payload_inside hl i
  rw [decodePlane_eq]
  split
  · next hf =>
    simp only [exec, execPlaneFill, h.act, if_pos hf]
    exact finishPlane_progress h hb hl List.length_replicate
  · next hf =>
    split
    · next hr =>
      simp only [exec, execPlaneRle, h.act, hr, and_self, if_true]
      refine ⟨_, rfl, inv_running h.sizes h.out h.buffers rfl ⟨hb, hl, rfl, Nat.le_refl _, ?_, ?_, hr⟩⟩
      · exact Nat.le_add_right _ _
      · exact Nat.zero_add _
    · next hr =>
      have hraw : selectsRaw s.ctx i = true := by
        rw [selectsRle_iff] at hr
        rw [selectsRaw_iff]
        exact ⟨Bool.not_eq_true _ ▸ hf, Nat.le_of_not_lt fun hlt => hr ⟨Bool.not_eq_true _ ▸ hf, hlt⟩⟩
      have ht := ((selectsRaw_iff s.ctx i).1 hraw).2
      simp only [exec, execPlaneRaw, h.act, hraw, and_self, if_true]
      rw [readRange_ok.2 ⟨by omega, rfl⟩, ok_bind]
      refine finishPlane_progress h hb hl ?_
      rw [List.length_take, List.length_drop]
      omega

/-- A run that fits into `remaining` goes on in the token loop with the cursor inside the plane. -/
theorem emitRun_progress {s : State} {input : List Byte} {w w' : Work} {i : PlaneId}
    (h : RunsAt s input w (.tokens i)) {n : Nat} (hn : n ≤ w.remaining) (hp : w.p ≤ w'.p) (hstop : w'.p ≤ w.stop)
    (hw : w' = { w with p := w'.p, value := w'.value }) :
    ∃ t, emitRun s input w' i n = .next t ∧ Inv t := by
  obtain ⟨hb, hl, hs, hbase, hle, hsum, hr⟩ :
    buffersSized s.ctx ∧ planesLocated s.ctx input w ∧ cursorInPlane s.ctx w i := h.inv
  have hlen := allPlanes_iff.1 hb.2.2.2.1 i
  obtain ⟨t, ht⟩ : ∃ t, emitRun s input w' i n = .next t := emitRun_fits (by rw [hw, hlen]; dsimp only; omega)
  refine ⟨t, ht, ?_⟩
  obtain ⟨a, ha, rfl⟩ := emitRun_next.1 ht
  refine inv_running h.sizes h.out h.buffers rfl ⟨setPlane_sized hb (writeAt_length ha), ?_, ?_, ?_, ?_, ?_, hr⟩
  · rw [hw]; exact hl
  · rw [hw]; exact hs
  · rw [hw]; exact Nat.le_trans hbase hp
  · rw [hw]; exact hstop
  · rw [hw]; show w.o + n + (w.remaining - n) = _; exact (by omega : _ = w.o + w.remaining).trans hsum

theorem emitChecked_progress {s : State} {input : List Byte} {w w' : Work} {i : PlaneId}
    (h : RunsAt s input w (.tokens i)) {n : Nat} (hp : w.p ≤ w'.p) (hstop : w'.p ≤ w.stop)
    (hw : w' = { w with p := w'.p, value := w'.value }) :
    ∃ t, emitChecked s input w' i n = .next t ∧ Inv t := by
  unfold emitChecked
  split
  · exact ⟨_, rfl, inv_raiseError _ _⟩
  · next hn => exact emitRun_progress h (by rw [hw] at hn; exact Nat.not_lt.1 hn) hp hstop hw

/-- A token in a context that admits it (R124 to R128). -/
theorem token_progress {s : State} {input : List Byte} {w : Work} {i : PlaneId} (h : RunsAt s input w (.tokens i))
    {tok : Instr} (hg : standsAt tok s = true) (hn : (tokenStores tok).isSome = true) :
    ∃ t, exec tok s = .next t ∧ Inv t := by
  cases tok with
  | lit5 v =>
    simp only [standsAt, h.act] at hg
    simp only [exec, execLit5, inTokenLoop_at h.act, hg, if_true]
    split
    · next hp =>
      exact emitRun_progress h (by simp only [beq_iff_eq] at hg; omega) (Nat.le_succ _) hp rfl
    · exact ⟨_, rfl, inv_raiseError _ _⟩
  | lit v =>
    simp only [standsAt, h.act] at hg
    simp only [exec, execLit, inTokenLoop_at h.act, hg, if_true]
    split
    · next hp =>
      exact emitRun_progress h (by simp only [decide_eq_true_eq] at hg; omega) (Nat.le_succ _) (by show w.p + 1 ≤ _; omega) rfl
    · exact ⟨_, rfl, inv_raiseError _ _⟩
  | runs v len =>
    simp only [standsAt, h.act] at hg
    simp only [exec, execRuns, inTokenLoop_at h.act, hg, if_true]
    split
    · next hp => exact emitChecked_progress h (Nat.le_add_right _ _) hp rfl
    · exact ⟨_, rfl, inv_raiseError _ _⟩
  | runl v n =>
    simp only [standsAt, h.act] at hg
    simp only [exec, execRunl, inTokenLoop_at h.act, hg, if_true]
    split
    · next hp => exact emitChecked_progress h (Nat.le_add_right _ _) hp rfl
    · exact ⟨_, rfl, inv_raiseError _ _⟩
  | trail a b c d =>
    simp only [standsAt, h.act] at hg
    simp only [exec, execTrail, inTokenLoop_at h.act, hg, if_true]
    split
    · split
      · next hf =>
        simp only [trailerFits, Bool.and_eq_true, decide_eq_true_eq] at hf
        obtain ⟨hb, hl, hs, hbase, hle, hsum, hr⟩ :
          buffersSized s.ctx ∧ planesLocated s.ctx input w ∧ cursorInPlane s.ctx w i := h.inv
        have hlen := allPlanes_iff.1 hb.2.2.2.1 i
        obtain ⟨x, hx⟩ := writeAt_fits (.plane i) (planeGet s.ctx.plane i) [a, b, c, d] w.o
          (by rw [hlen]; simp only [List.length_cons, List.length_nil]; omega)
        simp only [hx, ok_bind, pure_eq_ok, answerOf_ok]
        refine ⟨_, rfl, inv_running h.sizes h.out h.buffers rfl ?_⟩
        apply stageAfterPlane_inv
        · exact setPlane_sized hb (writeAt_length hx)
        · exact hl
      · exact ⟨_, rfl, inv_raiseError _ _⟩
    · exact ⟨_, rfl, inv_raiseError _ _⟩
  | _ => cases hn

theorem clx_progress {s : State} {input : List Byte} {w : Work} {c : Chroma} (h : RunsAt s input w (.clx c)) :
    ∃ t, exec (.clx c) s = .next t ∧ Inv t := by
  simp only [exec, execClx, h.act, if_true]
  have hx : ∀ c', buffersSized s.ctx →
      chromaExpanded (setChroma s.ctx c' (expandPlane s.ctx.colorLossLevel (planeGet s.ctx.plane (chromaPlane c')))) c' :=
    fun c' hb => ⟨by
      rw [chromaGet_setChroma_self, expandPlane_length, setChroma_planeTargetSize]
      exact allPlanes_iff.1 hb.2.2.2.1 _,
      by rw [chromaGet_setChroma_self]; exact expandPlane_inRange _ _⟩
  refine ⟨_, rfl, ?_⟩
  cases c with
  | co =>
    have hb : buffersSized s.ctx := h.inv
    exact inv_running h.sizes h.out h.buffers rfl ⟨setChroma_sized hb, hx .co hb⟩
  | cg =>
    obtain ⟨hb, hco⟩ : buffersSized s.ctx ∧ chromaExpanded s.ctx .co := h.inv
    have hb' := setChroma_sized (ch := .cg)
      (a := expandPlane s.ctx.colorLossLevel (planeGet s.ctx.plane .cg)) hb
    have hco' : chromaExpanded (setChroma s.ctx .cg (expandPlane s.ctx.colorLossLevel (planeGet s.ctx.plane .cg))) .co := hco
    refine inv_running h.sizes h.out h.buffers rfl ?_
    cases hs : s.ctx.subsampling
    · exact ⟨hb', full_of_expanded hb' hs hco', full_of_expanded hb' hs (hx .cg hb)⟩
    · exact ⟨hb', hs, hco', hx .cg hb⟩

theorem ups_progress {s : State} {input : List Byte} {w : Work} {c : Chroma} (h : RunsAt s input w (.ups c)) :
    ∃ t, exec (.ups c (pad8 s.ctx.width.toNat / 2)) s = .next t ∧ Inv t := by
  simp only [exec, execUps, h.act, if_true]
  cases c with
  | co =>
    obtain ⟨hb, hs, hco, hcg⟩ : buffersSized s.ctx ∧ s.ctx.subsampling = true ∧ chromaExpanded s.ctx .co ∧
      chromaExpanded s.ctx .cg := h.inv
    obtain ⟨hg, w', b, hu, hw', hlen, hr⟩ := upsample_full hb hs hco w s.draws
    simp only [hg, if_true, hu, ok_bind, pure_eq_ok, answerOf_ok]
    exact ⟨_, rfl, inv_running h.sizes h.out h.buffers rfl ⟨setChroma_sized hb, hs, ⟨hlen, hr⟩, hcg⟩⟩
  | cg =>
    obtain ⟨hb, hs, hco, hcg⟩ : buffersSized s.ctx ∧ s.ctx.subsampling = true ∧ chromaFull s.ctx .co ∧
      chromaExpanded s.ctx .cg := h.inv
    obtain ⟨hg, w', b, hu, hw', hlen, hr⟩ := upsample_full hb hs hcg w s.draws
    simp only [hg, if_true, hu, ok_bind, pure_eq_ok, answerOf_ok]
    exact ⟨_, rfl, inv_running h.sizes h.out h.buffers rfl ⟨setChroma_sized hb, hco, ⟨hlen, hr⟩⟩⟩

theorem csc_progress {s : State} {input : List Byte} {w : Work} (h : RunsAt s input w .csc) :
    ∃ t, exec .csc s = .next t ∧ Inv t := by
  have hc : buffersComplete s.ctx := h.inv
  obtain ⟨out, ho, hf⟩ := convertImage_spec (cscReady_of_complete hc) w hc.1.2.2.2.2
  simp only [exec, execCsc, h.act, ho, ok_bind, pure_eq_ok, answerOf_ok]
  refine ⟨_, rfl, ⟨h.sizes, rfl, fun _ => rfl, fun _ => ?_, trivial⟩⟩
  exact ⟨⟨hc.1.1, hc.1.2.1, hc.1.2.2.1, hc.1.2.2.2.1, hf.1⟩, hc.2⟩

end Sys2Proof.Machine
end

