-- ==== Sys2Proof/Laws/Reference.lean ====
section
/-! SUPPORT. The parts of a message against the reference function: the token loop, UPS and CSC, and the bookkeeping of runs
of several steps. -/

namespace Sys2Proof.Machine

/-! ## Runs of several steps -/

/-- `n` steps take `s` to `t`. -/
abbrev RunsTo (n : Nat) (s t : State) : Prop := Host.Core.run Sys2Proof.core n s = .next t

/-- One step more. -/
theorem run_cons {n : Nat} {s s1 t : State} (h : step s = .next s1) (h2 : RunsTo n s1 t) : RunsTo (n+1) s t := by
  simp only [RunsTo, Host.Core.run]
  rw [show Sys2Proof.core.step s = .next s1 from h]; exact h2

/-- Two runs in a row. -/
theorem run_add {m : Nat} {s1 t : State} (h2 : RunsTo m s1 t) : ∀ {n : Nat} {s : State}, RunsTo n s s1 → RunsTo (n+m) s t
  | 0, s, h => by
    have : s = s1 := by injection (show Host.Outcome.next s = _ from h)
    subst this; rw [Nat.zero_add]; exact h2
  | n+1, s, h => by
    have h' := h
    simp only [RunsTo, Host.Core.run] at h'
    split at h'
    · next s' hs =>
      rw [show n + 1 + m = (n + m) + 1 by omega]
      exact run_cons hs (run_add h2 h')
    · cases h'
    · cases h'

/-- Within `b` steps the command ends in error `k` (R172). -/
def Fails (b : Nat) (s : State) (k : ErrorKind) : Prop :=
  ∃ n t, n ≤ b ∧ RunsTo n s t ∧ t.activity = .idle ∧ t.pending = s.pending ∧ t.params = s.params ∧
    t.ctx.status = errorStatus k ∧ t.ctx.outputValid = false ∧ t.ctx.buffersValid = false ∧
    t.ctx.width = s.ctx.width ∧ t.ctx.height = s.ctx.height

/-- Within `b` steps the command reaches `stage` with context `c`. -/
def Comes (b : Nat) (s : State) (input : List Byte) (base : PerPlane Nat) (stage : Stage) (c : Context) : Prop :=
  ∃ n t w', n ≤ b ∧ RunsTo n s t ∧ t.activity = .running input w' stage ∧ w'.base = base ∧ t.ctx = c ∧
    t.pending = s.pending ∧ t.params = s.params

/-- An error in this step. -/
theorem fails_now {s : State} {k} (h : step s = .next (raiseError k s)) {b} (hb : 1 ≤ b) : Fails b s k :=
  ⟨1, _, hb, run_cons h rfl, rfl, rfl, rfl, rfl, rfl, rfl, rfl, rfl⟩

/-- An error after this step. -/
theorem fails_later {b : Nat} {s s1 : State} {k} (h : step s = .next s1) (hp : s1.pending = s.pending) (hd : s1.params = s.params)
   (hw : s1.ctx.width = s.ctx.width) (hh : s1.ctx.height = s.ctx.height) (hf : Fails b s1 k) : Fails (b+1) s k := by
  obtain ⟨n, t, h1, h2, h3, h4, h5, h6, h7, h8, h9, h10⟩ := hf
  exact ⟨n+1, t, by omega, run_cons h h2, h3, by rw [h4, hp], by rw [h5, hd], h6, h7, h8, by rw [h9, hw], by rw [h10, hh]⟩

/-- A stage reached after this step. -/
theorem comes_later {b : Nat} {s s1 : State} {input base stage c} (h : step s = .next s1) (hp : s1.pending = s.pending) (hd : s1.params = s.params)
   (hf : Comes b s1 input base stage c) : Comes (b+1) s input base stage c := by
  obtain ⟨n, t, w', h1, h2, h3, h4, h5, h6, h7⟩ := hf
  exact ⟨n+1, t, w', by omega, run_cons h h2, h3, h4, h5, by rw [h6, hp], by rw [h7, hd]⟩

theorem Fails.mono {b b' s k} (h : Fails b s k) (hb : b ≤ b') : Fails b' s k := by
  obtain ⟨n, t, h1, h2⟩ := h; exact ⟨n, t, by omega, h2⟩
theorem Comes.mono {b b' s input base stage c} (h : Comes b s input base stage c) (hb : b ≤ b') : Comes b' s input base stage c := by
  obtain ⟨n, t, w, h1, h2⟩ := h; exact ⟨n, t, w, by omega, h2⟩

/-! ## The token loop -/

/-- The token loop of plane `i` with `bs` left of the payload, `before` written and `old` still to be overwritten. -/
structure TokAt (P : Params) (s : State) (input : List Byte) (w : Work) (i : PlaneId) (rem : Nat) (bs before old : List Byte) : Prop where
  act : s.activity = .running input w (.tokens i)
  params : s.params = P
  remE : w.remaining = rem
  pstop : w.p ≤ w.stop
  stopin : w.stop ≤ input.length
  win : (input.drop w.p).take (w.stop - w.p) = bs
  plane : planeGet s.ctx.plane i = before ++ old
  o : before.length = w.o
  oldlen : old.length = rem

/-- The payload bytes left are those between the cursor and the bound. -/
theorem TokAt.len {P s input w i rem bs before old} (h : TokAt P s input w i rem bs before old) : bs.length = w.stop - w.p := by
  rw [← h.win, List.length_take, List.length_drop]; have := h.stopin; have := h.pstop; omega

theorem planeSet_planeSet {α} (f : PerPlane α) (i) (x y : α) : planeSet (planeSet f i x) i y = planeSet f i y := by cases i <;> rfl

/-- What a token stream does, by what the reference function makes of it. -/
def TokGoal (s : State) (input : List Byte) (w : Work) (i : PlaneId) (n : Nat) (before : List Byte) : Option (List Byte) → Prop
  | some l => Comes n s input w.base (stageAfterPlane i) { s.ctx with plane := planeSet s.ctx.plane i (before ++ l) }
  | none => Fails (n + 1) s .corruptRunLength

/-- A step in the token loop decodes the bytes that are left. -/
theorem step_token {P s input w i rem bs before old} (h : TokAt P s input w i rem bs before old) :
    step s = match decodeToken P.byteOrder rem bs with
      | .ok t => exec t s
      | .error r => .next (raiseError (rejectError r) s) := by
  have hf : fetch s = some (.token rem bs) := by simp only [fetch, h.act, h.win, h.remE]
  cases hx : decodeToken P.byteOrder rem bs <;> simp only [step, hf, decode, h.params, hx, afterFetch_running h.act]

/-- TRAIL in its context: the four bytes end the plane, or the stream is corrupt (R128). -/
theorem execTrail_at {s : State} {input : List Byte} {w : Work} {i : PlaneId}
    (h : s.activity = .running input w (.tokens i)) (hr : w.remaining ≤ 4) (t u x z : Byte) :
    exec (.trail t u x z) s =
      if trailerFits s.params.strictTrailer w then
        answerOf (do
          let a ← writeAt (.plane i) (planeGet s.ctx.plane i) w.o [t, u, x, z]
          return withActivity (withContext s (setPlane s.ctx i a))
            (.running input { w with o := w.o + 4, remaining := 0, p := w.p + 4 } (stageAfterPlane i)))
      else .next (raiseError .corruptRunLength s) := by
  simp only [exec, execTrail]
  rw [inTokenLoop_at h, if_pos (by simpa using hr)]
  split
  · rfl
  · next hp =>
    rw [if_neg]
    simp only [trailerFits, Bool.and_eq_true, decide_eq_true_eq]
    omega

/-- The trailer and every corrupt end of a stream. -/
theorem trail_goal {P : Params} {s : State} {input : List Byte} {w : Work} {i : PlaneId} {rem : Nat} {bs before old : List Byte}
    (h : TokAt P s input w i rem bs before old) (hr : rem ≤ 4) :
    TokGoal s input w i bs.length before (refTokens P.strictTrailer P.byteOrder 0 rem bs) := by
  have hs := step_token h
  have hlen := h.len
  unfold decodeToken at hs
  rw [if_pos hr] at hs
  have hbad : ∀ a b c d : Byte, step s = exec (.trail a b c d) s → trailerFits P.strictTrailer w = false →
      refTokens P.strictTrailer P.byteOrder 0 rem bs = none →
      TokGoal s input w i bs.length before (refTokens P.strictTrailer P.byteOrder 0 rem bs) := by
    intro a b c d hs hf hn
    rw [hn]
    rw [execTrail_at h.act (by rw [h.remE]; exact hr), if_neg (by rw [h.params, hf]; exact Bool.false_ne_true)] at hs
    exact (fails_now hs (Nat.le_add_left 1 _) : Fails _ _ _)
  have hgood : ∀ a b c d : Byte, step s = exec (.trail a b c d) s → trailerFits P.strictTrailer w = true → 1 ≤ bs.length →
      refTokens P.strictTrailer P.byteOrder 0 rem bs = some [a, b, c, d] →
      TokGoal s input w i bs.length before (refTokens P.strictTrailer P.byteOrder 0 rem bs) := by
    intro a b c d hs hf hb hn
    rw [hn]
    have h4 : w.remaining = 4 := by
      simp only [trailerFits, Bool.and_eq_true, decide_eq_true_eq] at hf
      exact hf.1.1
    have hw : writeAt (.plane i) (planeGet s.ctx.plane i) w.o [a, b, c, d] = .ok (before ++ [a, b, c, d]) := by
      have hm := writeAt_middle (.plane i) before old [] [a, b, c, d] (by rw [h.oldlen, ← h.remE, h4]; rfl)
      rw [List.append_nil, List.append_nil] at hm
      rw [h.plane, ← h.o, hm]
    rw [execTrail_at h.act (by rw [h4]), if_pos (by rw [h.params]; exact hf), hw, ok_bind, pure_eq_ok, answerOf_ok] at hs
    exact ⟨1, _, { w with p := w.p + 4, o := w.o + 4, remaining := 0 }, hb, run_cons hs rfl, rfl, rfl, rfl, rfl, rfl⟩
  have hcut : step s = .next (raiseError .corruptRunLength s) → refTokens P.strictTrailer P.byteOrder 0 rem bs = none →
      TokGoal s input w i bs.length before (refTokens P.strictTrailer P.byteOrder 0 rem bs) := by
    intro hs hn
    rw [hn]
    exact (fails_now hs (Nat.le_add_left 1 _) : Fails _ _ _)
  match bs, hs, hlen, hbad, hgood, hcut with
  | [], hs, _, _, _, hcut => exact hcut hs (by simp [refTokens])
  | [_], hs, _, _, _, hcut => exact hcut hs (by simp [refTokens])
  | [_, _], hs, _, _, _, hcut => exact hcut hs (by simp [refTokens])
  | [_, _, _], hs, _, _, _, hcut => exact hcut hs (by simp [refTokens])
  | [a, b, c, d], hs, hlen, hbad, hgood, _ =>
    simp only [List.length_cons, List.length_nil] at hlen
    by_cases h4 : rem = 4
    · refine hgood a b c d hs ?_ (by simp) (by simp [refTokens, h4])
      cases P.strictTrailer <;> simp [trailerFits, h.remE, h4] <;> omega
    · refine hbad a b c d hs ?_ (by simp [refTokens, h4])
      simp [trailerFits, h.remE, h4]
  | a :: b :: c :: d :: e :: l, hs, hlen, hbad, hgood, _ =>
    simp only [List.length_cons] at hlen
    by_cases h4 : rem = 4
    · cases hstrict : P.strictTrailer <;> rw [hstrict] at hbad hgood
      · exact hgood a b c d hs (by simp [trailerFits, h.remE, h4]; omega) (by simp) (by simp [refTokens, h4])
      · exact hbad a b c d hs (by simp [trailerFits, h.remE, h4]; omega) (by simp [refTokens])
    · exact hbad a b c d hs (by simp [trailerFits, h.remE, h4]) (by simp [refTokens, h4])

/-- A token that stores `n` copies of `v` and reads `k` bytes, before a stream whose reading is known. -/
theorem advance {P s input w i rem bs before old} (h : TokAt P s input w i rem bs before old) {k n : Nat} {v : Byte}
    (hs : step s = emitRun s input { w with p := w.p + k, value := v } i n) (hn : n ≤ rem) (hk : 1 ≤ k) (hkb : k ≤ bs.length)
    {r : Option (List Byte)}
    (ih : ∀ s' w' before' old', TokAt P s' input w' i (rem - n) (bs.drop k) before' old' →
       TokGoal s' input w' i (bs.drop k).length before' r) :
    TokGoal s input w i bs.length before (r.map (fun l => List.replicate n v ++ l)) := by
  have hlen := h.len
  have hold : old = old.take n ++ old.drop n := (List.take_append_drop n old).symm
  have hw : writeAt (.plane i) (planeGet s.ctx.plane i) w.o (List.replicate n v) = .ok (before ++ List.replicate n v ++ old.drop n) := by
    rw [h.plane, ← h.o]; conv_lhs => rw [hold, ← List.append_assoc]
    refine writeAt_middle _ _ _ _ _ ?_
    rw [List.length_take, List.length_replicate, h.oldlen]; omega
  have he := (emitRun_next (s := s) (input := input) (w := { w with p := w.p + k, value := v }) (i := i) (n := n)).2 ⟨_, hw, rfl⟩
  rw [← hs] at he
  have hp : TokAt P (withActivity (withContext s (setPlane s.ctx i (before ++ List.replicate n v ++ old.drop n))) (.running input { w with p := w.p + k, value := v, o := w.o + n, remaining := w.remaining - n } (.tokens i))) input { w with p := w.p + k, value := v, o := w.o + n, remaining := w.remaining - n } i (rem - n) (bs.drop k) (before ++ List.replicate n v) (old.drop n) := {
    act := rfl
    params := h.params
    remE := by show w.remaining - n = _; rw [h.remE]
    pstop := by show w.p + k ≤ w.stop; omega
    stopin := h.stopin
    win := by
      show (input.drop (w.p + k)).take (w.stop - (w.p + k)) = _
      rw [← h.win, List.drop_take, List.drop_drop]; congr 1; omega
    plane := by show planeGet (planeSet _ _ _) _ = _; rw [planeGet_planeSet_self]
    o := by simp [h.o]
    oldlen := by rw [List.length_drop, h.oldlen] }
  have := ih _ _ _ _ hp
  cases r with
  | none => 
    refine (fails_later he rfl rfl rfl rfl this).mono ?_
    rw [List.length_drop]; omega
  | some l =>
    have h2 := comes_later he rfl rfl this
    show Comes _ _ _ _ _ _
    have : { s.ctx with plane := planeSet s.ctx.plane i (before ++ (List.replicate n v ++ l)) } = 
      ({ (setPlane s.ctx i (before ++ List.replicate n v ++ old.drop n)) with plane := planeSet (setPlane s.ctx i (before ++ List.replicate n v ++ old.drop n)).plane i (before ++ List.replicate n v ++ l)} : Context) := by
      simp only [setPlane, planeSet_planeSet, List.append_assoc]
    refine Comes.mono ?_ (show (bs.drop k).length + 1 ≤ _ by rw [List.length_drop]; omega)
    have e2 := h2
    rw [show (withActivity (withContext s (setPlane s.ctx i (before ++ List.replicate n v ++ old.drop n))) _).ctx = setPlane s.ctx i (before ++ List.replicate n v ++ old.drop n) from rfl] at e2
    dsimp only
    rw [this]
    exact e2

/-- The token loop against the reference function: the plane it writes, or CorruptRunLength (R123 to R129). -/
theorem tokens_goal : ∀ (fuel rem : Nat) (bs : List Byte) {P s input w i before old}, TokAt P s input w i rem bs before old → bs.length ≤ fuel →
    TokGoal s input w i bs.length before (refTokens P.strictTrailer P.byteOrder fuel rem bs)
  | 0, rem, bs, P, s, input, w, i, before, old, h, hf => by
    by_cases hr : rem ≤ 4
    · exact trail_goal h hr
    · have : bs = [] := List.length_eq_zero_iff.1 (by omega)
      subst this
      have hs := step_token h
      simp only [decodeToken, if_neg hr] at hs
      rw [show refTokens P.strictTrailer P.byteOrder 0 rem [] = none by simp [refTokens]]
      exact fails_now hs (by simp)
  | fuel+1, rem, bs, P, s, input, w, i, before, old, h, hf => by
    by_cases hr : rem ≤ 4
    · rw [refTokens.eq_def]; dsimp only; rw [if_pos hr]; exact trail_goal h hr
    have hs := step_token h
    have hlen := h.len
    rw [refTokens.eq_def]; dsimp only; rw [if_neg hr]
    unfold decodeToken at hs
    rw [if_neg hr] at hs
    match bs, hs, h, hlen, hf with
    | [], hs, h, hlen, hf => exact (fails_now hs (Nat.le_add_left 1 _) : Fails _ _ _)
    | v :: rest, hs, h, hlen, hf =>
      have hstep : ∀ k, k ≤ (v :: rest).length → w.p + k ≤ w.stop := fun k hk => by have := h.pstop; omega
      simp only [List.length_cons] at hf
      dsimp only at hs ⊢
      by_cases h5 : rem = 5
      · rw [if_pos h5] at hs ⊢
        have hx := advance h (k := 1) (n := 1) (v := v) (by
          rw [hs]; simp only [exec, execLit5, inTokenLoop_at h.act, h.remE, h5]
          rw [if_pos (by decide), if_pos (hstep 1 (by simp))]) (by omega) (by omega) (by simp)
          (fun s' w' b' o' h' => tokens_goal fuel (rem - 1) rest h' (by omega))
        rw [h5] at hx; exact hx
      rw [if_neg h5] at hs ⊢
      match rest, hs, h, hlen, hf, hstep with
      | [], hs, h, hlen, hf, hstep => exact (fails_now hs (Nat.le_add_left 1 _) : Fails _ _ _)
      | m :: am, hs, h, hlen, hf, hstep =>
        dsimp only at hs ⊢
        simp only [List.length_cons] at hf
        by_cases hm : m ≠ v
        · rw [if_pos hm] at hs ⊢
          exact advance h (k := 1) (n := 1) (v := v) (by
            rw [hs]; simp only [exec, execLit, inTokenLoop_at h.act, h.remE]
            rw [if_pos (by simp; omega), if_pos (hstep 2 (by simp))]) (by omega) (by omega) (by simp)
            (fun s' w' b' o' h' => tokens_goal fuel (rem - 1) (m :: am) h' (by simp; omega))
        rw [if_neg hm] at hs ⊢
        match am, hs, h, hlen, hf, hstep with
        | [], hs, h, hlen, hf, hstep => exact (fails_now hs (Nat.le_add_left 1 _) : Fails _ _ _)
        | len :: al, hs, h, hlen, hf, hstep =>
          dsimp only at hs ⊢
          simp only [List.length_cons] at hf
          by_cases hl : len ≠ 0xFF#8
          · rw [if_pos hl] at hs ⊢
            have he : step s = emitChecked s input { w with p := w.p + 3, value := v } i (len.toNat + 2) := by
              rw [hs]; simp only [exec, execRuns, inTokenLoop_at h.act, h.remE]
              rw [if_pos (by simp; exact ⟨by omega, hl⟩), if_pos (hstep 3 (by simp))]
            unfold emitChecked at he
            dsimp only at he
            by_cases hc : len.toNat + 2 > rem
            · rw [if_pos (by rw [h.remE]; exact hc)] at he; rw [if_pos hc]
              exact fails_now he (by simp)
            · rw [if_neg (by rw [h.remE]; exact hc)] at he; rw [if_neg hc]
              exact advance h (k := 3) he (by omega) (by omega) (by simp)
                (fun s' w' b' o' h' => tokens_goal fuel _ al h' (by omega))
          rw [if_neg hl] at hs ⊢
          match al, hs, h, hlen, hf, hstep with
          | n0 :: n1 :: n2 :: n3 :: rest', hs, h, hlen, hf, hstep =>
            dsimp only at hs ⊢
            simp only [List.length_cons] at hf
            have he : step s = emitChecked s input { w with p := w.p + 7, value := v } i (assemble32 P.byteOrder n0 n1 n2 n3).toNat := by
              rw [hs]; simp only [exec, execRunl, inTokenLoop_at h.act, h.remE]
              rw [if_pos (by simp; omega), if_pos (hstep 7 (by simp))]
            unfold emitChecked at he
            dsimp only at he
            by_cases hc : (assemble32 P.byteOrder n0 n1 n2 n3).toNat > rem
            · rw [if_pos (by rw [h.remE]; exact hc)] at he; rw [if_pos hc]
              exact fails_now he (by simp)
            · rw [if_neg (by rw [h.remE]; exact hc)] at he; rw [if_neg hc]
              exact advance h (k := 7) he (by omega) (by omega) (by simp)
                (fun s' w' b' o' h' => tokens_goal fuel _ rest' h' (by omega))
          | [], hs, h, hlen, hf, hstep => exact (fails_now hs (Nat.le_add_left 1 _) : Fails _ _ _)
          | [_], hs, h, hlen, hf, hstep => exact (fails_now hs (Nat.le_add_left 1 _) : Fails _ _ _)
          | [_, _], hs, h, hlen, hf, hstep => exact (fails_now hs (Nat.le_add_left 1 _) : Fails _ _ _)
          | [_, _, _], hs, h, hlen, hf, hstep => exact (fails_now hs (Nat.le_add_left 1 _) : Fails _ _ _)

/-! ## UPS and CSC -/

/-- Blocks of 4 bytes, joined. -/
theorem flatMap4 (f : Nat → List Byte) (hf : ∀ i, (f i).length = 4) : ∀ n,
    ((List.range n).flatMap f).length = 4 * n ∧ ∀ i < n, ∀ q < 4, ((List.range n).flatMap f)[4*i+q]? = (f i)[q]?
  | 0 => ⟨rfl, fun i h => by omega⟩
  | n+1 => by
    obtain ⟨h1, h2⟩ := flatMap4 f hf n
    rw [List.range_succ, List.flatMap_append, List.flatMap_singleton]
    refine ⟨by rw [List.length_append, h1, hf]; omega, fun i hi q hq => ?_⟩
    by_cases hin : i < n
    · rw [List.getElem?_append_left (by omega), h2 i hin q hq]
    · obtain rfl : i = n := by omega
      rw [List.getElem?_append_right (by omega)]
      congr 1; omega

/-- OUT with every pixel written is the bitmap of the reference function (R164). -/
theorem outFilled_eq {c : Context} {out} (h : outFilled c (c.width.toNat * c.height.toNat) out) :
    out = refBitmap c.subsampling c.width.toNat c.height.toNat c.plane.y c.co c.cg c.plane.alpha := by
  obtain ⟨h1, h2⟩ := flatMap4 (pixelAt c) (fun _ => rfl) (c.width.toNat * c.height.toNat)
  have e : refBitmap c.subsampling c.width.toNat c.height.toNat c.plane.y c.co c.cg c.plane.alpha =
    (List.range (c.width.toNat * c.height.toNat)).flatMap (pixelAt c) := rfl
  rw [e]
  apply List.ext_getElem?
  intro k
  by_cases hk : k < 4 * (c.width.toNat * c.height.toNat)
  · have := h.2 (k/4) (by omega) (k%4) (by omega)
    have h3 := h2 (k/4) (by omega) (k%4) (by omega)
    rw [show 4 * (k/4) + k%4 = k by omega] at this h3
    rw [this, h3]
  · rw [List.getElem?_eq_none (by rw [h.1]; omega), List.getElem?_eq_none (by rw [h1]; omega)]

/-- The closed form of UPS fixes its result. -/
theorem upsample_eq {a b : List Sample} {w2 rows : Nat} (hw2 : 1 ≤ w2) (hlen : a.length = rows * w2) (hb : b.length = 4 * a.length)
    (h : ∀ y c, c < 2 * w2 → y < 2 * rows → b[y * (2 * w2) + c]? = a[y / 2 * w2 + c / 2]?) : b = refUpsample a w2 := by
  have hl : (refUpsample a w2).length = 4 * a.length := by simp [refUpsample]
  apply List.ext_getElem?
  intro k
  by_cases hk : k < 4 * a.length
  · have hrow : k / (2 * w2) < 2 * rows := by
      refine Nat.div_lt_of_lt_mul ?_
      have : 2 * w2 * (2 * rows) = 4 * (rows * w2) := by ring
      omega
    have hcol : k % (2 * w2) < 2 * w2 := Nat.mod_lt _ (by omega)
    have he := h _ _ hcol hrow
    rw [show k / (2 * w2) * (2 * w2) + k % (2 * w2) = k by rw [Nat.mul_comm]; exact Nat.div_add_mod _ _] at he
    rw [he]
    have hx : k / (2 * w2) / 2 * w2 + k % (2 * w2) / 2 < a.length := by
      rw [hlen]
      have := row_col_lt (m := w2) (show k / (2*w2) / 2 < rows by omega)
      omega
    simp only [refUpsample, List.getElem?_map, List.getElem?_range hk, Option.map_some]
    rw [List.getD_eq_getElem?_getD, List.getElem?_eq_getElem hx]; rfl
  · rw [List.getElem?_eq_none (by omega), List.getElem?_eq_none (by omega)]

end Sys2Proof.Machine
end

