-- ==== Sys2Proof/Tests/Slice0.lean ====
section
/-! SUPPORT. The model's own tests: the smoke test of WellFormed, decoding of words written out from spec/30_encoding.md,
one-step tests whose results are those of spec/95_test_vectors.md, and for every statement with hypotheses a witness that
meets them. -/

namespace Sys2Proof.Tests

open Sys2Proof.Machine

/-! ## Helpers -/

/-- The next state of an answer. -/
def nextOf : Answer → Option State
  | .next s => some s
  | .fault _ => none
  | .refused _ => none

/-- The refusal of an answer. -/
def refusalOf : Answer → Option Refusal
  | .next _ => none
  | .fault _ => none
  | .refused r => some r

/-- The fault of an answer. -/
def faultOf : Answer → Option Fault
  | .next _ => none
  | .fault f => some f
  | .refused _ => none

/-- The instruction a unit decodes to. -/
def decoded (u : FetchUnit) : Option Instr :=
  match decode .le u with
  | .ok i => some i
  | .error _ => none

/-- The parameters of R6 with a known environment, which denies the listed requests. -/
def denying (requests : List (List Nat)) : Params := { Config.params with allocation := .denying requests }

/-- The error of the steps before the first plane. -/
def prepareError (denied : List (List Nat)) (inLen : Nat) (c : Context) : Option ErrorKind :=
  match prepare (denying denied) 0 inLen c with
  | .ok _ => none
  | .error k => some k

/-- Working registers at 0. -/
def work0 : Work := ⟨⟨0, 0, 0, 0⟩, 0, 0, 0, 0, 0, 0, 0, 0, 0⟩

/-- A context of `w` x `h` with a header parsed and every buffer at its size, all zero. -/
def sized (w h : U32) (sub : Bool) (counts : PerPlane U32) : Context :=
  let t := targetSizes sub w.toNat h.toNat
  { Context.reset with
    width := w
    height := h
    subsampling := sub
    planeByteCount := counts
    planeTargetSize := t
    plane := ⟨List.replicate t.y 0, List.replicate t.co 0, List.replicate t.cg 0, List.replicate t.alpha 0⟩
    co := List.replicate t.co 0
    cg := List.replicate t.cg 0
    out := List.replicate (w.toNat * h.toNat * 4) 0 }

/-- A running command, in an environment that grants every request. -/
def running (c : Context) (input : List Byte) (w : Work) (stage : Stage) : State :=
  { State.reset with ctx := c, activity := .running input w stage, params := denying [] }

/-- The token loop of plane Y with target `target` and payload `bs` at base 0, as the RLE vectors place it. -/
def atToken (target : Nat) (bs : List Byte) : State :=
  running { Context.reset with plane := ⟨List.replicate target 0, [], [], []⟩ } bs
    { work0 with stop := bs.length, remaining := target } (.tokens .y)

/-- Plane Y after a step. -/
def lumaOf (a : Answer) : Option (List Byte) := (nextOf a).map fun s => s.ctx.plane.y

/-- `p` and `remaining` after a step in the token loop. -/
def cursorOf (a : Answer) : Option (Nat × Nat) :=
  match nextOf a with
  | some ⟨_, .running _ w _, _, _, _⟩ => some (w.p, w.remaining)
  | _ => none

/-- The stage after a step. -/
def stageOf (a : Answer) : Option Stage :=
  match nextOf a with
  | some ⟨_, .running _ _ st, _, _, _⟩ => some st
  | _ => none

/-- STATUS after a step that leaves the core idle. -/
def statusOf (a : Answer) : Option Status :=
  match nextOf a with
  | some ⟨c, .idle, _, _, _⟩ => some c.status
  | _ => none

/-- The step has a next state. -/
def stepGoesOn (s : State) : Bool := (nextOf (step s)).isSome

/-! ## WellFormed refuses the ill-formed -/

theorem test_wf_runs_length_255 : Instr.wellFormed (.runs 0x05 0xFF) = false := by decide
theorem test_wf_runs_length_254 : Instr.wellFormed (.runs 0x05 0xFE) = true := by decide
theorem test_wf_ups_no_row : Instr.wellFormed (.ups .co 0) = false := by decide
theorem test_wf_reserved : Instr.wellFormed .reserved = false := by decide

/-! ## Decoding, from the formats of spec 30 -/

/-- R71, V-HDR-2: counts 8, 8, 8, 0 little endian, level 3, subsampling 0, reserved AB CD. -/
theorem test_decode_hdr :
    decoded (.header [0x08, 0, 0, 0, 0x08, 0, 0, 0, 0x08, 0, 0, 0, 0, 0, 0, 0, 0x03, 0x00, 0xAB, 0xCD]) =
      some (.hdr 8 8 8 0 3 0 0xAB 0xCD) := by decide
/-- The byte weights of R53: 0x04030201. -/
theorem test_decode_hdr_weights :
    decoded (.header [1, 2, 3, 4, 0, 0, 0, 0, 0, 0, 0, 0, 0, 0, 0, 0, 0, 1, 0, 0]) =
      some (.hdr 0x04030201 0 0 0 0 1 0 0) := by decide
/-- R103: 19 bytes are no header. -/
theorem test_decode_hdr_short : decoded (.header (List.replicate 19 0)) = none := by decide
/-- V-PSEL-1, V-PSEL-4, V-PSEL-5: FILL and RLE. -/
theorem test_decode_psel_fill_rle :
    decoded (.plane .alpha 0 8) = some .planeFill ∧ decoded (.plane .alpha 7 8) = some (.planeRle .alpha) ∧
      decoded (.plane .y 0 8) = some (.planeRle .y) := by decide
/-- V-PSEL-2, V-PSEL-3, V-PSEL-6, V-PSEL-7: RAW. -/
theorem test_decode_psel_raw :
    decoded (.plane .alpha 8 8) = some (.planeRaw .alpha) ∧ decoded (.plane .alpha 10 8) = some (.planeRaw .alpha) ∧
      decoded (.plane .co 8 8) = some (.planeRaw .co) ∧ decoded (.plane .cg 9 8) = some (.planeRaw .cg) := by decide
/-- V-RLE-1: at `remaining = 5` an equal byte after the literal is not looked at. -/
theorem test_decode_lit5 : decoded (.token 5 [0x07, 0x07, 0x07, 0x07, 0x07]) = some (.lit5 0x07) := by decide
/-- V-RLE-3: the next byte differs. -/
theorem test_decode_lit : decoded (.token 12 [0x11, 0x22, 0x22, 0x03]) = some (.lit 0x11) := by decide
/-- V-RLE-2: 0xFE is the longest short run. -/
theorem test_decode_runs : decoded (.token 260 [0x5A, 0x5A, 0xFE, 0x01]) = some (.runs 0x5A 0xFE) := by decide
/-- V-RLE-4, and a length whose four bytes differ (R53, R77). -/
theorem test_decode_runl :
    decoded (.token 32 [0x09, 0x09, 0xFF, 0x1C, 0, 0, 0, 0x01]) = some (.runl 0x09 28) ∧
      decoded (.token 6 [0x09, 0x09, 0xFF, 0x01, 0x02, 0x03, 0x04]) = some (.runl 0x09 0x04030201) := by decide
/-- R78: four bytes at `remaining <= 4`. -/
theorem test_decode_trail : decoded (.token 4 [0xAA, 0xBB, 0xCC, 0xDD]) = some (.trail 0xAA 0xBB 0xCC 0xDD) := by decide
/-- V-RLE-11, V-RLE-12, V-RLE-15: tokens that are cut off. -/
theorem test_decode_cut :
    decoded (.token 12 [0x05, 0x05, 0xFF, 0x01, 0x00]) = none ∧ decoded (.token 9 [0x05]) = none ∧
      decoded (.token 4 [0x01, 0x02, 0x03]) = none ∧ decoded (.token 8 []) = none := by decide
/-- R85: the units the pipeline selects. -/
theorem test_decode_pipeline :
    decoded (.clx .cg) = some (.clx .cg) ∧ decoded (.ups .co 4) = some (.ups .co 4) ∧ decoded .csc = some .csc := by decide
/-- R82: codes 00, 01, 10 and 11. -/
theorem test_decode_commands :
    decoded (.command ⟨0b00, 3, 4, []⟩) = some .newContext ∧ decoded (.command ⟨0b01, 3, 4, []⟩) = some (.setDimensions 3 4) ∧
      decoded (.command ⟨0b10, 3, 4, [7]⟩) = some (.processMessage [7]) ∧
      decoded (.command ⟨0b11, 3, 4, []⟩) = some .reserved := by decide
/-- The opcode table's numbering: the first byte is bits 7 to 0. -/
theorem test_table_words :
    decodeTableWord 8 0 = some .newContext ∧ decodeTableWord 8 1 = some (.setDimensions 0 0) ∧
      decodeTableWord 8 2 = some (.processMessage []) ∧ decodeTableWord 8 3 = some .reserved ∧
      decodeTableWord 8 0x41 = some (.lit 0x41) ∧ decodeTableWord 24 0xFE5A5A = some (.runs 0x5A 0xFE) ∧
      decodeTableWord 56 0x1CFF0909 = some (.runl 0x09 28) ∧
      decodeTableWord 32 0xDDCCBBAA = some (.trail 0xAA 0xBB 0xCC 0xDD) ∧
      decodeTableWord 160 8 = some (.hdr 8 0 0 0 0 0 0 0) := by decide
/-- A placed token is what the next step runs: it stores 256 bytes of the 260. -/
theorem test_fetch_word_runs : cursorOf (step (State.reset.withFetchWord 24 0xFE5A5A)) = some (3, 4) := by decide +kernel
/-- A placed command is what the next step runs. -/
theorem test_fetch_word_command : stageOf (step (State.reset.withFetchWord 8 2)) = some .header := by decide

/-! ## The commands (V-CMD) -/

/-- V-CMD-1, V-CMD-4: every field at its value of R39. -/
theorem test_newContext :
    nextOf (exec .newContext { State.reset with ctx := sized 8 1 true ⟨1, 2, 3, 4⟩, activity := .uncreated }) =
      some State.reset := by decide
/-- V-CMD-3: SET_DIMENSIONS keeps STATUS and clears the valid bits. -/
theorem test_setDimensions :
    (nextOf (exec (.setDimensions 8 1)
      { State.reset with ctx := { sized 1 1 false ⟨1, 1, 1, 1⟩ with status := .ok, outputValid := true, buffersValid := true } })).map
        (fun s => (s.ctx.width, s.ctx.height, s.ctx.status, s.ctx.outputValid, s.ctx.buffersValid)) =
      some (8, 1, .ok, false, false) := by decide
/-- R21, R35, R101: on a context just made, SET_DIMENSIONS leaves the reset values of the header fields. -/
theorem test_setDimensions_keeps_reset_values :
    (nextOf (exec (.setDimensions 8 1) State.reset)).map
        (fun s => (s.ctx.colorLossLevel, s.ctx.subsampling, s.ctx.planeByteCount, s.ctx.planeTargetSize)) =
      some (0, false, ⟨0, 0, 0, 0⟩, ⟨0, 0, 0, 0⟩) := by decide
/-- R102: PROCESS_MESSAGE clears the valid bits and starts at the header. -/
theorem test_processMessage :
    (nextOf (exec (.processMessage [1])
      { State.reset with ctx := { Context.reset with status := .ok, outputValid := true, buffersValid := true } })).map
        (fun s => (s.ctx.outputValid, s.ctx.buffersValid, s.ctx.status)) = some (false, false, .ok) ∧
      stageOf (exec (.processMessage [1]) State.reset) = some .header := by decide
/-- R82, R190, R193: the refusals of the command interface. -/
theorem test_command_refusals :
    refusalOf (exec .reserved State.reset) = some .reservedCommand ∧
      refusalOf (exec (.setDimensions 1 1) { State.reset with activity := .uncreated }) = some .noContext ∧
      refusalOf (exec .newContext (running Context.reset [] work0 .csc)) = some .commandRunning := by decide

/-! ## The header (V-HDR, V-SIZE, V-ERR) -/

/-- V-HDR-2: the header passes with exactly 44 bytes, OUT is 32 zeros and plane Y is next. -/
theorem test_hdr_passes :
    (nextOf (exec (.hdr 8 8 8 0 3 0 0 0)
      (running { Context.reset with width := 8, height := 1 } (List.replicate 44 0) work0 .header))).map
        (fun s => (s.ctx.colorLossLevel, s.ctx.subsampling, s.ctx.planeTargetSize, s.ctx.out)) =
      some (3, false, ⟨8, 8, 8, 8⟩, List.replicate 32 0) ∧
    (match nextOf (exec (.hdr 8 8 8 0 3 0 0 0)
        (running { Context.reset with width := 8, height := 1 } (List.replicate 44 0) work0 .header)) with
      | some ⟨_, .running _ w st, _, _, _⟩ => some (w.base, st)
      | _ => none) = some (⟨20, 28, 36, 44⟩, .plane .y) := by decide +kernel
/-- V-HDR-3, V-HDR-5: the payload does not fit. -/
theorem test_hdr_malformed :
    statusOf (exec (.hdr 8 8 8 0 3 0 0 0)
      (running { Context.reset with width := 8, height := 1 } (List.replicate 43 0) work0 .header)) = some .malformedHeader ∧
    statusOf (exec (.hdr 0xFFFFFFFF 0xFFFFFFFF 0xFFFFFFFF 0xFFFFFFFF 0 0 0 0)
      (running { Context.reset with width := 8, height := 1 } (List.replicate 20 0) work0 .header)) =
        some .malformedHeader := by decide +kernel
/-- V-SIZE-1 to V-SIZE-5: the target sizes. -/
theorem test_target_sizes :
    targetSizes false 8 1 = ⟨8, 8, 8, 8⟩ ∧ targetSizes false 9 2 = ⟨18, 18, 18, 18⟩ ∧
      targetSizes true 9 2 = ⟨32, 8, 8, 18⟩ ∧ targetSizes true 3 3 = ⟨24, 8, 8, 9⟩ ∧
      targetSizes true 1 1 = ⟨8, 4, 4, 1⟩ := by decide
/-- V-SIZE-2, V-SIZE-3: what `can_allocate` is asked for. -/
theorem test_needed_sizes :
    neededSizes false 9 2 = [18, 18, 18, 18, 36, 36, 72] ∧
      neededSizes true 9 2 = [32, 8, 8, 18, 16, 16, 72, 64, 64] := by decide
/-- V-SIZE-6 to V-SIZE-11, V-ERR-1 to V-ERR-4: which error comes first. -/
theorem test_prepare_errors :
    prepareError [] 20 (sized 0 5 false ⟨0, 0, 0, 0⟩) = some .unsupportedDimensions ∧
      prepareError [] 20 (sized 0 0 false ⟨1, 0, 0, 0⟩) = some .malformedHeader ∧
      prepareError [[8, 8, 8, 8, 16, 16, 32]] 20 (sized 8 1 false ⟨0, 0, 0, 0⟩) = some .allocationFailure ∧
      prepareError [[8, 8, 8, 8, 16, 16, 32]] 20 (sized 9 1 false ⟨0, 0, 0, 0⟩) = none := by decide +kernel
/-- R6, R105: MAX_SIZE is the machine's: with 71 a bitmap of 9 x 2 is too large, with 72 it is not. -/
theorem test_max_size :
    checkDimensions { denying [] with maxSize := 71 } (sized 9 2 false ⟨0, 0, 0, 0⟩) = .error .unsupportedDimensions ∧
      checkDimensions { denying [] with maxSize := 72 } (sized 9 2 false ⟨0, 0, 0, 0⟩) = .ok () := by decide
/-- V-SIZE-7 to V-SIZE-10: the size check at the top of the range. -/
theorem test_size_limit :
    (∃ n ∈ checkedSizes false 65536 65536, n > 2 ^ 32 - 1) ∧ (∃ n ∈ checkedSizes false 65535 65535, n > 2 ^ 32 - 1) ∧
      (∀ n ∈ checkedSizes false 32768 32767, n ≤ 2 ^ 32 - 1) ∧ (∀ n ∈ checkedSizes true 32768 32767, n ≤ 2 ^ 32 - 1) := by
  decide +kernel

/-! ## The plane modes (V-PSEL) -/

/-- V-PSEL-1: eight FF, and CLX is next. -/
theorem test_planeFill :
    (nextOf (exec .planeFill (running (sized 8 1 false ⟨8, 8, 8, 0⟩) [] work0 (.plane .alpha)))).map
        (fun s => s.ctx.plane.alpha) = some (List.replicate 8 0xFF) ∧
      stageOf (exec .planeFill (running (sized 8 1 false ⟨8, 8, 8, 0⟩) [] work0 (.plane .alpha))) = some (.clx .co) := by
  decide
/-- V-PSEL-3: the first 8 of 10 bytes, from the plane's base. -/
theorem test_planeRaw :
    (nextOf (exec (.planeRaw .alpha) (running (sized 8 1 false ⟨0, 0, 0, 10⟩) [0, 1, 2, 3, 4, 5, 6, 7, 8, 9, 10]
      { work0 with base := ⟨0, 0, 0, 1⟩ } (.plane .alpha)))).map (fun s => s.ctx.plane.alpha) =
        some [1, 2, 3, 4, 5, 6, 7, 8] := by decide
/-- V-PSEL-4: the token loop starts at the base with `remaining = T`. -/
theorem test_planeRle :
    cursorOf (exec (.planeRle .alpha) (running (sized 8 1 false ⟨0, 0, 0, 7⟩) []
      { work0 with base := ⟨0, 0, 0, 20⟩ } (.plane .alpha))) = some (20, 8) := by decide
/-- The guard: a filled plane is not a raw one. -/
theorem test_plane_guard :
    refusalOf (exec (.planeRaw .alpha) (running (sized 8 1 false ⟨0, 0, 0, 0⟩) [] work0 (.plane .alpha))) =
      some .notSelected := by decide

/-! ## The tokens (V-RLE) -/

/-- V-RLE-3: LIT 11, remaining 11. -/
theorem test_lit :
    lumaOf (step (atToken 12 [0x11, 0x22, 0x22, 3, 0x33, 0x44, 0x55, 0x66, 0x77, 0x88])) =
        some [0x11, 0, 0, 0, 0, 0, 0, 0, 0, 0, 0, 0] ∧
      cursorOf (step (atToken 12 [0x11, 0x22, 0x22, 3, 0x33, 0x44, 0x55, 0x66, 0x77, 0x88])) = some (1, 11) := by decide
/-- V-RLE-12: the peek is bounded. -/
theorem test_lit_peek_cut : statusOf (step (atToken 9 [5])) = some .corruptRunLength := by decide
/-- V-RLE-1: LIT5 07, remaining 4. -/
theorem test_lit5 :
    lumaOf (step (atToken 5 [7, 7, 7, 7, 7])) = some [7, 0, 0, 0, 0] ∧
      cursorOf (step (atToken 5 [7, 7, 7, 7, 7])) = some (1, 4) := by decide
/-- V-SRC-1: RUNS 05 of 5 bytes, remaining 4. -/
theorem test_runs :
    lumaOf (step (atToken 9 [5, 5, 3, 0xAA, 0xBB, 0xCC, 0xDD])) = some [5, 5, 5, 5, 5, 0, 0, 0, 0] ∧
      cursorOf (step (atToken 9 [5, 5, 3, 0xAA, 0xBB, 0xCC, 0xDD])) = some (3, 4) := by decide
/-- V-RLE-8, V-RLE-9: 9 bytes fit into remaining 9, 10 do not. -/
theorem test_runs_bound :
    cursorOf (step (atToken 9 [5, 5, 7, 1, 2, 3, 4])) = some (3, 0) ∧
      statusOf (step (atToken 9 [5, 5, 8, 1, 2, 3, 4])) = some .corruptRunLength := by decide
/-- V-RLE-4, V-RLE-5: RUNL 09 of 28 and of 0 bytes. -/
theorem test_runl :
    cursorOf (step (atToken 32 [9, 9, 0xFF, 0x1C, 0, 0, 0, 1, 2, 3, 4])) = some (7, 4) ∧
      cursorOf (step (atToken 9 [9, 9, 0xFF, 0, 0, 0, 0, 9, 9, 3, 1, 2, 3, 4])) = some (7, 9) ∧
      lumaOf (step (atToken 9 [9, 9, 0xFF, 0, 0, 0, 0, 9, 9, 3, 1, 2, 3, 4])) = some (List.replicate 9 0) := by decide
/-- V-RLE-10, V-RLE-11: too long, and cut off. -/
theorem test_runl_corrupt :
    statusOf (step (atToken 9 [5, 5, 0xFF, 0x0A, 0, 0, 0, 1, 2])) = some .corruptRunLength ∧
      statusOf (step (atToken 12 [5, 5, 0xFF, 1, 0])) = some .corruptRunLength := by decide
/-- V-SRC-1: the trailer ends the plane, and plane Co is next. -/
theorem test_trail :
    lumaOf (step (atToken 4 [0xAA, 0xBB, 0xCC, 0xDD])) = some [0xAA, 0xBB, 0xCC, 0xDD] ∧
      stageOf (step (atToken 4 [0xAA, 0xBB, 0xCC, 0xDD])) = some (.plane .co) := by decide
/-- A token-loop state on a machine with other parameters. -/
def withParams (P : Params) (s : State) : State := { s with params := P }

/-- V-RLE-14, V-RLE-15: bytes after the trailer, under both settings; and a trailer that is cut off. -/
theorem test_trail_strict :
    statusOf (step (atToken 4 [0xAA, 0xBB, 0xCC, 0xDD, 0xEE])) = some .corruptRunLength ∧
      lumaOf (step (withParams { denying [] with strictTrailer := false } (atToken 4 [0xAA, 0xBB, 0xCC, 0xDD, 0xEE]))) =
        some [0xAA, 0xBB, 0xCC, 0xDD] ∧
      statusOf (step (atToken 4 [1, 2, 3])) = some .corruptRunLength := by decide
/-- R6, R53, R127: the length of a long run under both byte orders, 28 and 28 * 2^24 (more than `remaining`). -/
theorem test_runl_byte_order :
    cursorOf (step (withParams { denying [] with byteOrder := .be } (atToken 32 [9, 9, 0xFF, 0, 0, 0, 0x1C, 1, 2, 3, 4]))) =
        some (7, 4) ∧
      statusOf (step (withParams { denying [] with byteOrder := .be } (atToken 32 [9, 9, 0xFF, 0x1C, 0, 0, 0, 1, 2, 3, 4]))) =
        some .corruptRunLength := by decide
/-- The array fault of R51, in a state no run reaches: the plane is shorter than the output index says. -/
theorem test_array_fault :
    faultOf (exec (.lit5 7) (running Context.reset [7] { work0 with stop := 1, remaining := 5 } (.tokens .y))) =
      some (.arrayIndex (.plane .y)) := by decide

/-! ## CLX, UPS and CSC -/

/-- The CLX table, rows 55, FF and 80. -/
theorem test_clx_values :
    (expandByte 2 0x55).toInt = -172 ∧ (expandByte 3 0x55).toInt = 168 ∧ (expandByte 3 0xFF).toInt = -8 ∧
      (expandByte 0 0xFF).toInt = 255 ∧ (expandByte 1 0x80).toInt = -256 ∧ (expandByte 8 0x01).toInt = -256 ∧
      (expandByte 9 0x01).toInt = 0 ∧ (expandByte 255 0xFF).toInt = 0 := by decide
/-- V-PIPE-1: CO = [16, 32, 48, 64], and CLX of Cg is next. -/
theorem test_clx :
    (nextOf (exec (.clx .co) (running { sized 1 1 true ⟨8, 4, 4, 1⟩ with plane := ⟨[], [0x10, 0x20, 0x30, 0x40], [8, 0, 0, 0], []⟩ }
      [] work0 (.clx .co)))).map (fun s => (s.ctx.co, s.ctx.cg)) = some ([16, 32, 48, 64], [0, 0, 0, 0]) ∧
    stageOf (exec (.clx .cg) (running (sized 1 1 true ⟨8, 4, 4, 1⟩) [] work0 (.clx .cg))) = some (.ups .co) := by decide
/-- V-UPS-2. -/
theorem test_ups :
    (nextOf (exec (.ups .co 4) (running { Context.reset with co := [1, 2, 3, 4, 5, 6, 7, 8] } [] work0 (.ups .co)))).map
        (fun s => s.ctx.co) =
      some [1, 1, 2, 2, 3, 3, 4, 4, 1, 1, 2, 2, 3, 3, 4, 4, 5, 5, 6, 6, 7, 7, 8, 8, 5, 5, 6, 6, 7, 7, 8, 8] := by
  decide +kernel
/-- V-UPS-3, on Cg; and spec 93 I16. -/
theorem test_ups_column :
    (nextOf (exec (.ups .cg 1) (running { Context.reset with cg := [1, 2, 3] } [] work0 (.ups .cg)))).map
        (fun s => s.ctx.cg) = some [1, 1, 1, 1, 2, 2, 2, 2, 3, 3, 3, 3] ∧
      refusalOf (exec (.ups .cg 2) (running { Context.reset with cg := [1, 2, 3] } [] work0 (.ups .cg))) =
        some .upsGeometry := by decide +kernel
/-- V-CSC-3, V-CSC-4, V-CSC-7, V-CSC-9: the pixel arithmetic. -/
theorem test_csc_pixels :
    pixelBytes 0xFF (BitVec.ofInt 16 255) (BitVec.ofInt 16 (-256)) 0x01 = [0x00, 0x7F, 0xFE, 0x01] ∧
      pixelBytes 0x00 (BitVec.ofInt 16 (-256)) (BitVec.ofInt 16 255) 0x80 = [0x01, 0x7F, 0x01, 0x80] ∧
      pixelBytes 0xFF (BitVec.ofInt 16 255) (BitVec.ofInt 16 255) 0x03 = [0x01, 0x7E, 0xFF, 0x03] ∧
      pixelBytes 0x0A (BitVec.ofInt 16 (-3)) (BitVec.ofInt 16 (-3)) 0x05 = [0x0C, 0x09, 0x0A, 0x05] := by decide
/-- Two pixels of one column, subsampled (`pad = 7`): rows of 8 in the source, rows of 1 in OUT and Alpha; and the commit. -/
theorem test_csc :
    (nextOf (exec .csc (running
      { sized 1 2 true ⟨16, 4, 4, 2⟩ with
        plane := ⟨[0x40, 1, 2, 3, 4, 5, 6, 7, 0x50, 1, 2, 3, 4, 5, 6, 7], [], [], [0, 9]⟩
        co := List.replicate 16 0
        cg := List.replicate 16 0 } [] work0 .csc))).map
        (fun s => (s.ctx.out, s.ctx.status, s.ctx.outputValid, s.ctx.buffersValid, s.activity)) =
      some ([0x40, 0x40, 0x40, 0xFF, 0x50, 0x50, 0x50, 0x09], .ok, true, true, .idle) := by decide +kernel

/-! ## Witnesses: concrete states and operands that meet the hypotheses of the statements -/

/-- A state about to parse the header of V-HDR-2, with 44 bytes of message. -/
def atHeader : State := running { Context.reset with width := 8, height := 1 } (List.replicate 44 0) work0 .header

/-- A 1 x 1 image whose buffers are complete, before CSC. -/
def atCsc : State := running (sized 1 1 false ⟨1, 1, 1, 1⟩) (List.replicate 24 0) work0 .csc

/-- An 8 x 1 image before plane `i`, with payloads of 7 bytes. -/
def atPlane (i : PlaneId) (alpha : U32) : State :=
  running (sized 8 1 false ⟨7, 8, 9, alpha⟩) (List.replicate 60 0) { work0 with base := ⟨20, 27, 35, 44⟩ } (.plane i)

theorem witness_NewContextResetsEveryField :
    State.reset.activity = .idle ∧ { State.reset with activity := .uncreated }.activity = .uncreated := by decide

/-- An idle core, and one whose STATUS is NONE. -/
theorem witness_SetDimensionsWritesTheSizes : State.reset.activity = .idle ∧ State.reset.ctx.status = .none := by decide

theorem witness_ProcessMessageStartsAtTheHeader :
    { State.reset with ctx := sized 8 1 false ⟨8, 8, 8, 0⟩ }.activity = .idle := by decide

theorem witness_CommandsAreRefusedOutOfTurn :
    ({ State.reset with activity := .uncreated }.activity = .uncreated ∧
      { State.reset with activity := .uncreated }.pending = []) ∧
    atHeader.activity = .running (List.replicate 44 0) work0 .header := by decide

/-- A stage mismatch, and a guard on `remaining` that does not hold at its boundary. -/
theorem witness_UnitsOutOfPlaceAreRefused :
    (isCommand .csc = false ∧ standsAt .csc State.reset = false) ∧
    (isCommand (.lit5 7) = false ∧ standsAt (.lit5 7) (atToken 6 [7, 8]) = false) ∧
    (isCommand (.lit 7) = false ∧ standsAt (.lit 7) (atToken 5 [7, 8]) = false) := by decide

theorem witness_HeaderPreparesTheBuffers :
    atHeader.activity = .running (List.replicate 44 0) work0 .header ∧
    20 + ((8 : U32).toNat + (8 : U32).toNat + (8 : U32).toNat + (0 : U32).toNat) ≤ (List.replicate 44 (0 : Byte)).length ∧
    atHeader.ctx.width ≠ 0 ∧ atHeader.ctx.height ≠ 0 ∧
    (∀ n ∈ checkedSizes (decide ((1 : Byte) ≠ 0)) atHeader.ctx.width.toNat atHeader.ctx.height.toNat, n ≤ atHeader.params.maxSize) ∧
    canAllocate atHeader.params
      (neededSizes (decide ((1 : Byte) ≠ 0)) atHeader.ctx.width.toNat atHeader.ctx.height.toNat) = true := by
  decide +kernel

/-- One state per clause: a payload one byte too long, a width of 0, and a denied request (V-SIZE-11). -/
theorem witness_HeaderErrorsComeInOrder :
    (atHeader.activity = .running (List.replicate 44 0) work0 .header ∧
      20 + ((8 : U32).toNat + (8 : U32).toNat + (9 : U32).toNat + (0 : U32).toNat) >
        (List.replicate 44 (0 : Byte)).length) ∧
    (20 + ((8 : U32).toNat + (8 : U32).toNat + (8 : U32).toNat + (0 : U32).toNat) ≤
        (List.replicate 44 (0 : Byte)).length ∧
      (running Context.reset (List.replicate 44 0) work0 .header).ctx.width = 0) ∧
    ((∀ n ∈ checkedSizes (decide ((0 : Byte) ≠ 0)) 8 1, n ≤ (denying [[8, 8, 8, 8, 16, 16, 32]]).maxSize) ∧
      canAllocate (withParams (denying [[8, 8, 8, 8, 16, 16, 32]]) atHeader).params
        (neededSizes (decide ((0 : Byte) ≠ 0)) 8 1) = false) := by
  decide +kernel

/-- A message of 19 bytes, and a token cut off after its first byte. -/
theorem witness_TruncatedUnitRaisesItsError :
    ((running Context.reset (List.replicate 19 0) work0 .header).activity =
        .running (List.replicate 19 0) work0 .header ∧ (List.replicate 19 (0 : Byte)).length < 20) ∧
    (atToken 9 [5]).activity = .running [5] { work0 with stop := 1, remaining := 9 } (.tokens .y) ∧
      decodeToken .le 9 (([5] : List Byte).drop 0 |>.take (1 - 0)) = .error .truncatedPeek := by
  refine ⟨by decide, by decide, rfl⟩

theorem witness_FillMakesAlphaOpaque :
    (atPlane .alpha 0).activity = .running (List.replicate 60 0) { work0 with base := ⟨20, 27, 35, 44⟩ } (.plane .alpha) ∧
    (atPlane .alpha 0).ctx.planeByteCount.alpha = 0 ∧
    (atPlane .alpha 0).ctx.plane.alpha.length = (atPlane .alpha 0).ctx.planeTargetSize.alpha := by decide

/-- Plane Co with exactly `T` bytes, and an Alpha plane with count not 0 and more than `T` bytes. -/
theorem witness_RawCopiesThePayload :
    (planeGet (atPlane .co 0).ctx.planeTargetSize .co ≤ (planeGet (atPlane .co 0).ctx.planeByteCount .co).toNat ∧
      27 + planeGet (atPlane .co 0).ctx.planeTargetSize .co ≤ (List.replicate 60 (0 : Byte)).length ∧
      (planeGet (atPlane .co 0).ctx.plane .co).length = planeGet (atPlane .co 0).ctx.planeTargetSize .co) ∧
    ((atPlane .alpha 10).ctx.planeByteCount.alpha ≠ 0 ∧
      planeGet (atPlane .alpha 10).ctx.planeTargetSize .alpha ≤
        (planeGet (atPlane .alpha 10).ctx.planeByteCount .alpha).toNat ∧
      44 + planeGet (atPlane .alpha 10).ctx.planeTargetSize .alpha ≤ (List.replicate 60 (0 : Byte)).length ∧
      (planeGet (atPlane .alpha 10).ctx.plane .alpha).length =
        planeGet (atPlane .alpha 10).ctx.planeTargetSize .alpha) := by decide

/-- Plane Y with one byte less than `T`, and an Alpha plane with count 1. -/
theorem witness_RleEntersTheTokenLoop :
    ((atPlane .y 0).activity = .running (List.replicate 60 0) { work0 with base := ⟨20, 27, 35, 44⟩ } (.plane .y) ∧
      (planeGet (atPlane .y 0).ctx.planeByteCount .y).toNat < planeGet (atPlane .y 0).ctx.planeTargetSize .y) ∧
    ((atPlane .alpha 1).ctx.planeByteCount.alpha ≠ 0 ∧
      (planeGet (atPlane .alpha 1).ctx.planeByteCount .alpha).toNat <
        planeGet (atPlane .alpha 1).ctx.planeTargetSize .alpha) := by decide

/-- The four clauses at their boundaries: `remaining` 5 with one byte left, 6 with two, and one byte fewer for each. -/
theorem witness_LiteralsEmitOneByte :
    ((atToken 5 [7]).activity = .running [7] { work0 with stop := 1, remaining := 5 } (.tokens .y) ∧
      planeGet (atToken 5 [7]).ctx.plane .y = [] ++ 0 :: List.replicate 4 0 ∧ 0 + 1 ≤ 1) ∧
    ((atToken 6 [7, 8]).activity = .running [7, 8] { work0 with stop := 2, remaining := 6 } (.tokens .y) ∧
      planeGet (atToken 6 [7, 8]).ctx.plane .y = [] ++ 0 :: List.replicate 5 0 ∧ 6 ≤ 6 ∧ 0 + 2 ≤ 2) ∧
    ((atToken 5 []).activity = .running [] { work0 with stop := 0, remaining := 5 } (.tokens .y) ∧ 0 < 0 + 1) ∧
    ((atToken 6 [7]).activity = .running [7] { work0 with stop := 1, remaining := 6 } (.tokens .y) ∧ 1 < 0 + 2) := by
  decide

/-- A run that fills `remaining` exactly (V-RLE-8), one that is one byte too long (V-RLE-9), and a cut one. -/
theorem witness_ShortRunEmitsLengthPlusTwo :
    ((atToken 9 [5, 5, 7]).activity = .running [5, 5, 7] { work0 with stop := 3, remaining := 9 } (.tokens .y) ∧
      (7 : Byte) ≠ 0xFF#8 ∧ 6 ≤ 9 ∧ 0 + 3 ≤ 3 ∧
      planeGet (atToken 9 [5, 5, 7]).ctx.plane .y = [] ++ List.replicate 9 0 ++ [] ∧
      (List.replicate 9 (0 : Byte)).length = (7 : Byte).toNat + 2 ∧ (7 : Byte).toNat + 2 ≤ 9) ∧
    ((8 : Byte) ≠ 0xFF#8 ∧ (8 : Byte).toNat + 2 > 9) ∧
    ((atToken 9 [5, 5]).activity = .running [5, 5] { work0 with stop := 2, remaining := 9 } (.tokens .y) ∧ 2 < 0 + 3) := by
  decide

/-- A run of 0 bytes, one longer than `remaining` (V-RLE-10), and a cut one. -/
theorem witness_LongRunEmitsItsLength :
    ((atToken 9 [9, 9, 0xFF, 0, 0, 0, 0]).activity =
        .running [9, 9, 0xFF, 0, 0, 0, 0] { work0 with stop := 7, remaining := 9 } (.tokens .y) ∧ 6 ≤ 9 ∧ 0 + 7 ≤ 7 ∧
      planeGet (atToken 9 [9, 9, 0xFF, 0, 0, 0, 0]).ctx.plane .y = [] ++ [] ++ List.replicate 9 0 ∧
      ([] : List Byte).length = (0 : U32).toNat ∧ (0 : U32).toNat ≤ 9) ∧
    (10 : U32).toNat > 9 ∧
    ((atToken 12 [5, 5, 0xFF, 1, 0]).activity =
        .running [5, 5, 0xFF, 1, 0] { work0 with stop := 5, remaining := 12 } (.tokens .y) ∧ 5 < 0 + 7) := by decide

/-- The trailer at the payload's end and, on a machine without STRICT_TRAILER, before it; a `remaining` of 3, a trailer cut
off after three bytes, and one with a byte after it (V-RLE-14). -/
theorem witness_TrailerEndsThePlane :
    ((atToken 4 [1, 2, 3, 4]).activity = .running [1, 2, 3, 4] { work0 with stop := 4, remaining := 4 } (.tokens .y) ∧
      planeGet (atToken 4 [1, 2, 3, 4]).ctx.plane .y = [] ++ List.replicate 4 0 ++ [] ∧
      (List.replicate 4 (0 : Byte)).length = 4 ∧ 0 + 4 ≤ 4 ∧
      ((atToken 4 [1, 2, 3, 4]).params.strictTrailer = true → 0 + 4 = 4)) ∧
    (0 + 4 ≤ 5 ∧ ((withParams { denying [] with strictTrailer := false } (atToken 4 [1, 2, 3, 4, 5])).params.strictTrailer = true →
      0 + 4 = 5)) ∧
    ((atToken 3 [1, 2, 3, 4]).activity = .running [1, 2, 3, 4] { work0 with stop := 4, remaining := 3 } (.tokens .y) ∧
      3 < 4) ∧
    ((atToken 4 [1, 2, 3]).activity = .running [1, 2, 3] { work0 with stop := 3, remaining := 4 } (.tokens .y) ∧
      3 < 0 + 4) ∧
    ((atToken 4 [1, 2, 3, 4, 5]).activity =
        .running [1, 2, 3, 4, 5] { work0 with stop := 5, remaining := 4 } (.tokens .y) ∧
      (atToken 4 [1, 2, 3, 4, 5]).params.strictTrailer = true ∧ 0 + 4 ≠ 5) := by decide

theorem witness_LooseTrailerIgnoresLaterBytes :
    (withParams { denying [] with strictTrailer := false } (atToken 4 [1, 2, 3, 4, 5])).activity =
        .running [1, 2, 3, 4, 5] { work0 with stop := 5, remaining := 4 } (.tokens .y) ∧
      (withParams { denying [] with strictTrailer := false } (atToken 4 [1, 2, 3, 4, 5])).params.strictTrailer = false ∧
      planeGet (atToken 4 [1, 2, 3, 4, 5]).ctx.plane .y = [] ++ List.replicate 4 0 ++ [] ∧
      (List.replicate 4 (0 : Byte)).length = 4 ∧ 0 + 4 ≤ 5 := by decide

theorem witness_LoopExitBelowFourIsCorrupt :
    (atToken 3 [1, 2, 3]).activity = .running [1, 2, 3] { work0 with stop := 3, remaining := 3 } (.tokens .y) ∧ 3 < 4 := by
  decide

/-- A literal in the middle of the loop goes on. -/
theorem witness_TokensStoreOnlyTheirBytes :
    tokenStores (.lit5 7) = some 1 ∧
    (atToken 5 [7]).activity = .running [7] { work0 with stop := 1, remaining := 5 } (.tokens .y) ∧
    ∃ t, exec (.lit5 7) (atToken 5 [7]) = .next t ∧ t.activity ≠ .idle :=
  ⟨rfl, rfl, _, rfl, by decide⟩

theorem witness_ColorLossSignExtendsNineBits :
    (running (sized 1 1 true ⟨8, 4, 4, 1⟩) [] work0 (.clx .co)).activity = .running [] work0 (.clx .co) ∧
    (planeGet (sized 1 1 true ⟨8, 4, 4, 1⟩).plane (chromaPlane .co))[3]? = some 0 := by decide

/-- The levels at which the bands meet. -/
theorem witness_ColorLossBands : (9 : Byte).toNat = 9 ∧ (9 : Nat) ≤ (9 : Byte).toNat := by decide

/-- Two rows of four samples, and the lower right corner of the output. -/
theorem witness_UpsamplingReplicatesTwoByTwo :
    (running { Context.reset with co := [1, 2, 3, 4, 5, 6, 7, 8] } [] work0 (.ups .co)).activity =
        .running [] work0 (.ups .co) ∧
      1 ≤ 4 ∧ (chromaGet { Context.reset with co := [1, 2, 3, 4, 5, 6, 7, 8] } .co).length = 2 * 4 ∧ 7 < 2 * 4 ∧
      3 < 2 * 2 := by decide

/-- A row length of 0, and three samples in rows of two. -/
theorem witness_UpsamplingRefusesBadGeometry :
    (running { Context.reset with co := [1, 2, 3] } [] work0 (.ups .co)).activity = .running [] work0 (.ups .co) ∧
      ¬ 2 ∣ (chromaGet { Context.reset with co := [1, 2, 3] } .co).length := by decide

/-- A 1 x 1 image, with subsampling off and on. -/
theorem witness_ConversionWritesTheBitmap :
    (atCsc.activity = .running (List.replicate 24 0) work0 .csc ∧ buffersComplete atCsc.ctx) ∧
    buffersComplete { sized 1 1 true ⟨8, 4, 4, 1⟩ with co := List.replicate 16 0, cg := List.replicate 16 0 } := by
  decide +kernel

/-- The samples at both ends of the range. -/
theorem witness_PixelSumsWrapModulo256 :
    sampleInRange (BitVec.ofInt 16 (-256)) ∧ sampleInRange (BitVec.ofInt 16 255) := by decide

theorem witness_DecodingInvertsEncoding :
    Instr.wellFormed (.runs 0x05 0xFE) = true ∧ Instr.admittedBefore 6 [] (.runs 0x05 0xFE) = true ∧
      Instr.admittedBefore 6 [0x06] (.lit 0x05) = true := by decide

theorem witness_DecodedTokenIsItsBytes : decodeToken .be 6 [9, 9, 0xFF, 0, 0, 0, 1, 5] = .ok (.runl 9 1) := rfl

/-- A command on an idle core, and a unit of every stage. -/
theorem witness_StepRunsTheDecodedUnit :
    ({ State.reset with pending := [⟨2, 0, 0, []⟩] }.activity = .idle) ∧
    decodeHeader .le (List.replicate 20 0) = .ok (.hdr 0 0 0 0 0 0 0 0) ∧
    decodePlane .y (planeGet (atPlane .y 0).ctx.planeByteCount .y).toNat (planeGet (atPlane .y 0).ctx.planeTargetSize .y) =
      .planeRle .y ∧
    decodeToken .le 6 (([7, 8] : List Byte).drop 0 |>.take (2 - 0)) = .ok (.lit 7) :=
  ⟨rfl, rfl, rfl, rfl⟩

theorem witness_IdleCoreHoldsItsContext : State.reset.activity = .idle ∧ State.reset.pending = [] := by decide

/-- A write that ends at the array's end, and one that goes one element beyond; the last element written, one before the
write, and an index one beyond the array; on bytes and on samples. -/
theorem witness_WriteThenReadAnArray :
    (1 + ([8, 9] : List Byte).length ≤ ([1, 2, 3] : List Byte).length ∧ ([8, 9] : List Byte)[1]? = some 9 ∧ 0 < 1) ∧
      ([1, 2, 3] : List Sample).length < 2 + ([8, 9] : List Sample).length ∧ ([1, 2, 3] : List Sample).length ≤ 3 := by
  decide

theorem witness_OnlySetDimensionsChangesTheSizes :
    ∃ t, exec .planeFill (atPlane .alpha 0) = .next t ∧ Instr.planeFill ≠ .newContext ∧
      ∀ w h, Instr.planeFill ≠ .setDimensions w h := ⟨_, rfl, by decide, fun _ _ => by simp⟩

/-- CSC of a 1 x 1 image ends the message: STATUS changes and OUTPUT_VALID is set. -/
theorem witness_StatusChangesOnlyAtTheEnd :
    (nextOf (exec .csc atCsc)).map (fun t => (decide (t.ctx.status ≠ atCsc.ctx.status), t.ctx.outputValid)) =
      some (true, true) ∧ atCsc.ctx.outputValid = false := by decide +kernel

theorem witness_MessageIsHeldUnchanged :
    ∃ t, exec (.lit5 7) (atToken 5 [7]) = .next t ∧
      (atToken 5 [7]).activity = .running [7] { work0 with stop := 1, remaining := 5 } (.tokens .y) := ⟨_, rfl, rfl⟩

theorem witness_HostAndEnvironmentAreUntouched : ∃ t, exec .planeFill (atPlane .alpha 0) = .next t := ⟨_, rfl⟩

/-- A running command, and an idle core with a bitmap. -/
theorem witness_HostReadsOnlyBetweenCommands :
    atCsc.activity = .running (List.replicate 24 0) work0 .csc ∧
    hostBitmap { State.reset with ctx := { Context.reset with out := [1], outputValid := true } } = some [1] := by decide

/-- The invariant holds before CSC of a 1 x 1 image. -/
theorem witness_inv_atCsc : Inv atCsc where
  sizesBounded := by decide +kernel
  validTogether := rfl
  validOk := fun h => by cases h
  memory := fun h => by cases h
  running := ⟨rfl, rfl, by show buffersComplete _; decide +kernel⟩

theorem witness_EveryStepKeepsTheInvariant : Inv atCsc ∧ stepGoesOn atCsc = true := ⟨witness_inv_atCsc, by decide +kernel⟩

theorem witness_NoStepReachesBeyondAnArray :
    Inv atCsc ∧ atCsc.activity = .running (List.replicate 24 0) work0 .csc := ⟨witness_inv_atCsc, rfl⟩

/-- The reference function gives a context. -/
def succeeds (r : Except ErrorKind Context) : Bool :=
  match r with
  | .ok _ => true
  | .error _ => false

/-- The message of V-PIPE-1. -/
def pipe1 : List Byte :=
  [8, 0, 0, 0, 4, 0, 0, 0, 4, 0, 0, 0, 1, 0, 0, 0, 0, 1, 0, 0] ++
    [0x64, 1, 2, 3, 4, 5, 6, 7] ++ [0x10, 0x20, 0x30, 0x40] ++ [8, 0, 0, 0] ++ [0x33]

/-- V-PIPE-1: the reference function gives the end state of the spec. -/
theorem test_reference_pipe1 :
    (match refMessage (denying []) 1 1 pipe1 with
      | .ok c => some (c.out, c.status, c.outputValid, c.buffersValid)
      | .error _ => none) = some ([0x58, 0x68, 0x68, 0x33], .ok, true, true) := by decide +kernel

/-- An idle core with the message of V-PIPE-1 next, in an environment that grants every request. -/
def atMessage : State := { State.reset with pending := [⟨2, 0, 0, pipe1⟩], params := denying [] }

/-- Both outcomes of a message occur: V-PIPE-1, and the same message cut by one byte. -/
theorem witness_MessageRunsToItsReference :
    atMessage.activity = .idle ∧ atMessage.pending = ⟨2, 0, 0, pipe1⟩ :: [] ∧
    succeeds (refMessage atMessage.params 1 1 pipe1) = true ∧
    succeeds (refMessage atMessage.params 1 1 (pipe1.take 36)) = false := by decide +kernel

/-- Two contexts that differ in everything but the dimensions. -/
theorem witness_SameMessageSameBitmap :
    { atMessage with ctx := sized 1 1 true ⟨8, 4, 4, 1⟩ }.activity = .idle ∧
    { atMessage with ctx := { Context.reset with width := 1, height := 1, status := .ok }
                     pending := [⟨2, 5, 5, pipe1⟩, ⟨0, 0, 0, []⟩] }.activity = .idle ∧
    (sized 1 1 true ⟨8, 4, 4, 1⟩).width = { Context.reset with width := 1, height := 1, status := .ok }.width ∧
    (sized 1 1 true ⟨8, 4, 4, 1⟩).height = { Context.reset with width := 1, height := 1, status := .ok }.height := by decide

end Sys2Proof.Tests
end

section
/-! PROOFS. The scope rules of spec 00: the padding of R9 (O8), and what an instruction leaves as it is around the Decode
Context (O39). -/

namespace Sys2Proof.Machine

/-! ## Padding (R9)

`pad8` and `pad2` are both rounding up, `k * ⌈n / k⌉`; what R9 says of them is one fact about the ceiling division. -/

theorem mul_ceilDiv_least {k : Nat} (hk : 0 < k) (n : Nat) :
    k ∣ k * (n ⌈/⌉ k) ∧ n ≤ k * (n ⌈/⌉ k) ∧ ∀ m, k ∣ m → n ≤ m → k * (n ⌈/⌉ k) ≤ m := by
  refine ⟨Nat.dvd_mul_right _ _, le_smul_ceilDiv hk, ?_⟩
  rintro _ ⟨c, rfl⟩ hn
  exact Nat.mul_le_mul_left k ((ceilDiv_le_iff_le_smul hk).2 hn)

theorem pad8_eq_mul_ceilDiv (n : Nat) : pad8 n = 8 * (n ⌈/⌉ 8) := by
  rw [pad8, Nat.ceilDiv_eq_add_pred_div, Nat.mul_comm]; rfl

theorem pad2_eq_mul_ceilDiv (n : Nat) : pad2 n = 2 * (n ⌈/⌉ 2) := by
  rw [pad2, Nat.ceilDiv_eq_add_pred_div, Nat.mul_comm]; rfl

/-- Settles O8: both paddings are a ceiling division multiplied back. -/
theorem paddingIsTheLeastMultiple : Obligations.PaddingIsTheLeastMultiple := by
  intro n
  rw [pad8_eq_mul_ceilDiv, pad2_eq_mul_ceilDiv]
  exact ⟨mul_ceilDiv_least (by decide) n, mul_ceilDiv_least (by decide) n⟩

/-! ## The host's list, the parameters and the draw counter (R6, R53) -/

/-- The fields of the state that belong to no Decode Context are as they were, but for free values drawn since. -/
def keepsEnvironment (s t : State) : Prop :=
  t.pending = s.pending ∧ t.params = s.params ∧ s.draws ≤ t.draws

theorem goesOn_keepsEnvironment {s t : State} {input : List Byte} (h : goesOn s t input) : keepsEnvironment s t :=
  h.2.2

theorem raiseError_keepsEnvironment (k : ErrorKind) (s : State) : keepsEnvironment s (raiseError k s) :=
  ⟨raiseError_pending k s, raiseError_params k s, Nat.le_succ _⟩

theorem withContext_keepsEnvironment (s : State) (c : Context) : keepsEnvironment s (withContext s c) :=
  ⟨rfl, rfl, Nat.le_refl _⟩

theorem keepsEnvironment_withActivity {s t : State} (a : Activity) (h : keepsEnvironment s t) :
    keepsEnvironment s (withActivity t a) := h

theorem keepsEnvironment_commit {s t : State} (h : keepsEnvironment s t) : keepsEnvironment s (commit t) := h

theorem keepsEnvironment_countDraw {s t : State} (h : keepsEnvironment s t) : keepsEnvironment s (countDraw t) := by
  obtain ⟨hpending, hparams, hdraws⟩ := h
  exact ⟨hpending, hparams, Nat.le_succ_of_le hdraws⟩

/-- A command that has a next state writes the context or the activity, and counts at most one draw. -/
theorem exec_command_keepsEnvironment {i : Instr} {s t : State} (hc : isCommand i = true)
    (h : exec i s = .next t) : keepsEnvironment s t := by
  obtain ⟨-, -, rfl⟩ | ⟨-, ⟨_, _, -, rfl⟩ | ⟨_, -, rfl⟩⟩ := exec_command_next hc h
  · exact keepsEnvironment_withActivity _ (withContext_keepsEnvironment _ _)
  · exact keepsEnvironment_countDraw (withContext_keepsEnvironment _ _)
  · exact keepsEnvironment_countDraw (keepsEnvironment_withActivity _ (withContext_keepsEnvironment _ _))

/-- A unit of a running command goes on, takes an error or commits; none of the three touches the environment. -/
theorem exec_unit_keepsEnvironment {i : Instr} {s t : State} (hc : isCommand i = false)
    (h : exec i s = .next t) : keepsEnvironment s t := by
  obtain ⟨_, _, _, -, hgo | ⟨k, rfl⟩ | ⟨-, -, _, rfl⟩⟩ := exec_unit_next hc h
  · exact goesOn_keepsEnvironment hgo
  · exact raiseError_keepsEnvironment k s
  · exact keepsEnvironment_commit (withContext_keepsEnvironment _ _)

/-- Settles O39, for commands and for the units of a running command apart. -/
theorem hostAndEnvironmentAreUntouched : Obligations.HostAndEnvironmentAreUntouched := by
  intro i s t h
  cases hc : isCommand i with
  | true => exact exec_command_keepsEnvironment hc h
  | false => exact exec_unit_keepsEnvironment hc h

end Sys2Proof.Machine
end

section
/-! PROOFS. The state rules of spec 10: the invariant (O41, O42), who writes WIDTH, HEIGHT, STATUS and OUTPUT_VALID (O36,
O37), the state right after reset (O1) and what the host may read (O40). -/

namespace Sys2Proof.Machine

/-! ## What the decoder can answer -/

/-- A command decodes to the meaning of a command. -/
theorem decodeCommand_isCommand (c : HostCommand) : isCommand (decodeCommand c) = true := by
  unfold decodeCommand
  split_ifs <;> rfl

theorem decodeHeader_ok {bo : ByteOrder} {bs : List Byte} {i : Instr} (h : decodeHeader bo bs = .ok i) :
    ∃ a b c d l sub x0 x1, i = .hdr a b c d l sub x0 x1 := by
  unfold decodeHeader at h
  split at h
  · cases h
  · cases h; exact ⟨_, _, _, _, _, _, _, _, rfl⟩

/-- The token that is read is one whose guard on `remaining` holds (R74). -/
theorem decodeToken_standsAt {s : State} {input : List Byte} {w : Work} {i : PlaneId} {bo : ByteOrder}
    {bs : List Byte} {tok : Instr} (hact : s.activity = .running input w (.tokens i))
    (h : decodeToken bo w.remaining bs = .ok tok) :
    standsAt tok s = true ∧ (tokenStores tok).isSome = true := by
  unfold decodeToken at h
  split at h
  · next h4 =>
    split at h <;> cases h
    exact ⟨by simpa only [standsAt, hact, decide_eq_true_eq] using h4, rfl⟩
  · next h4 =>
    split at h
    · cases h
    split at h
    · next h5 =>
      cases h
      exact ⟨by simpa only [standsAt, hact, beq_iff_eq] using h5, rfl⟩
    next h5 =>
    have h6 : 6 ≤ w.remaining := by omega
    split at h
    · cases h
    split at h
    · cases h
      exact ⟨by simpa only [standsAt, hact, decide_eq_true_eq] using h6, rfl⟩
    split at h
    · cases h
    split at h
    · next hlen =>
      cases h
      exact ⟨by simpa only [standsAt, hact, Bool.and_eq_true, decide_eq_true_eq, bne_iff_ne] using ⟨h6, hlen⟩, rfl⟩
    split at h <;> cases h
    exact ⟨by simpa only [standsAt, hact, decide_eq_true_eq] using h6, rfl⟩

/-! ## A step of a running command -/

/-- When every instruction that the current unit can decode to has a next state that meets the invariant, so has the step:
a unit that is cut off raises its error. -/
theorem step_progress {s : State} {input : List Byte} {w : Work} {stage : Stage} {u : FetchUnit}
    (hact : s.activity = .running input w stage) (hu : fetch s = some u)
    (hexec : ∀ i, decode s.params.byteOrder u = .ok i → ∃ t, exec i s = .next t ∧ Inv t) :
    ∃ t, step s = .next t ∧ Inv t := by
  obtain ⟨i, hi, hs⟩ | ⟨r, -, hs⟩ := step_running hact hu
  · rw [hs]; exact hexec i hi
  · exact ⟨_, hs, inv_raiseError _ s⟩

/-- Each stage of a running command has a next state, and it meets the invariant. -/
theorem running_progress {s : State} {input : List Byte} {w : Work} {stage : Stage} (h : RunsAt s input w stage) :
    ∃ t, step s = .next t ∧ Inv t := by
  cases stage with
  | header =>
    refine step_progress h.act (u := .header input) (by simp only [fetch, h.act]) fun i hi => ?_
    obtain ⟨a, b, c, d, l, sub, x0, x1, rfl⟩ := decodeHeader_ok hi
    exact execHdr_progress h a b c d l sub x0 x1
  | plane i =>
    refine step_progress h.act (by simp only [fetch, h.act]; rfl) fun _ hi => ?_
    cases hi
    exact plane_progress h
  | tokens i =>
    refine step_progress h.act (by simp only [fetch, h.act]; rfl) fun _ hi => ?_
    obtain ⟨hg, hn⟩ := decodeToken_standsAt h.act hi
    exact token_progress h hg hn
  | clx c =>
    refine step_progress h.act (by simp only [fetch, h.act]; rfl) fun _ hi => ?_
    cases hi
    exact clx_progress h
  | ups c =>
    refine step_progress h.act (by simp only [fetch, h.act]; rfl) fun _ hi => ?_
    cases hi
    exact ups_progress h
  | csc =>
    refine step_progress h.act (by simp only [fetch, h.act]; rfl) fun _ hi => ?_
    cases hi
    exact csc_progress h

/-! ## A step between commands -/

theorem idleStep_next {s t : State} (h : idleStep s = .next t) : t = s := by
  unfold idleStep at h
  split at h
  · cases h
  · cases h; rfl
  · cases h; rfl

/-- Between commands a step holds the state, or executes the host's next command (R186). -/
theorem step_between_next {s t : State} (hact : s.activity = .idle ∨ s.activity = .uncreated) (h : step s = .next t) :
    t = s ∨ ∃ i, isCommand i = true ∧ exec i (afterFetch s) = .next t := by
  have hf := fetch_command hact
  cases hp : s.pending.head? with
  | none =>
    simp only [step, hf, hp, Option.map_none] at h
    exact .inl (idleStep_next h)
  | some c =>
    simp only [step, hf, hp, Option.map_some, decode] at h
    exact .inr ⟨_, decodeCommand_isCommand c, h⟩

/-! ## The invariant between commands -/

/-- An idle core with both valid bits 0 meets the invariant when its sizes are bounded. -/
theorem inv_idle {s : State} (hact : s.activity = .idle)
    (hsz : allPlanes fun i => planeGet s.ctx.planeTargetSize i ≤ s.params.maxSize)
    (ho : s.ctx.outputValid = false) (hb : s.ctx.buffersValid = false) : Inv s where
  sizesBounded := hsz
  validTogether := by rw [ho, hb]
  validOk := fun h => by rw [ho] at h; cases h
  memory := fun h => by rw [hb] at h; cases h
  running := by simp only [activityInv, hact]

/-- The target sizes of the reset context are 0 (R39). -/
theorem resetSizes_bounded (n : Nat) : allPlanes fun i => planeGet Context.reset.planeTargetSize i ≤ n :=
  allPlanes_iff.2 fun i => by cases i <;> exact Nat.zero_le n

/-- The invariant does not speak of the host's list. -/
theorem inv_afterFetch {s : State} (h : Inv s) : Inv (afterFetch s) := by
  unfold afterFetch
  split
  · exact ⟨h.sizesBounded, h.validTogether, h.validOk, h.memory, h.running⟩
  · exact ⟨h.sizesBounded, h.validTogether, h.validOk, h.memory, h.running⟩
  · exact h

/-- Every command leaves both valid bits 0, and the sizes as they were, reset, or drawn below MAX_SIZE. -/
theorem exec_command_inv {i : Instr} {s t : State} (hc : isCommand i = true) (hinv : Inv s)
    (h : exec i s = .next t) : Inv t := by
  obtain ⟨-, -, rfl⟩ | ⟨hidle, ⟨_, _, -, rfl⟩ | ⟨_, -, rfl⟩⟩ := exec_command_next hc h
  · exact inv_idle rfl (resetSizes_bounded _) rfl rfl
  · exact inv_idle hidle
      (allPlanes_iff.2 fun j => invalidate_sizes s.draws (allPlanes_iff.1 hinv.sizesBounded j)) rfl rfl
  · exact inv_running hinv.sizesBounded rfl rfl rfl trivial

theorem step_between_inv {s t : State} (hact : s.activity = .idle ∨ s.activity = .uncreated) (hinv : Inv s)
    (h : step s = .next t) : Inv t := by
  obtain rfl | ⟨i, hc, hx⟩ := step_between_next hact h
  · exact hinv
  · exact exec_command_inv hc (inv_afterFetch hinv) hx

/-- Settles O42: a running command by its stages, any other core by the commands. -/
theorem everyStepKeepsTheInvariant : Obligations.EveryStepKeepsTheInvariant := by
  intro s t hinv h
  cases hact : s.activity with
  | uncreated => exact step_between_inv (.inr hact) hinv h
  | idle => exact step_between_inv (.inl hact) hinv h
  | running input w stage =>
    obtain ⟨t', ht', hinv'⟩ := running_progress (RunsAt.of_inv hinv hact)
    rw [h] at ht'
    cases ht'
    exact hinv'

/-- Settles O41: right after reset the core is idle and nothing is valid. -/
theorem resetMeetsTheInvariant : Obligations.ResetMeetsTheInvariant :=
  inv_idle rfl (resetSizes_bounded _) rfl rfl

/-! ## WIDTH and HEIGHT (R21, R24, R25) -/

/-- WIDTH and HEIGHT as they were. -/
def keepsDimensions (s t : State) : Prop := t.ctx.width = s.ctx.width ∧ t.ctx.height = s.ctx.height

/-- A unit that goes on, an error (R172) and commit (R108) all keep the dimensions. -/
theorem exec_unit_keepsDimensions {i : Instr} {s t : State} (hc : isCommand i = false) (h : exec i s = .next t) :
    keepsDimensions s t := by
  obtain ⟨_, _, _, -, ⟨-, ⟨hw, hh, -⟩, -⟩ | ⟨k, rfl⟩ | ⟨-, -, out, rfl⟩⟩ := exec_unit_next hc h
  · exact ⟨hw, hh⟩
  · exact ⟨by simp, by simp⟩
  · exact ⟨by simp, by simp⟩

/-- Settles O36: of the commands only PROCESS_MESSAGE is left, and it clears the valid bits alone. -/
theorem onlySetDimensionsChangesTheSizes : Obligations.OnlySetDimensionsChangesTheSizes := by
  intro i s t h hnew hset
  cases hc : isCommand i with
  | false => exact exec_unit_keepsDimensions hc h
  | true =>
    obtain ⟨rfl, -⟩ | ⟨-, ⟨w, h', rfl, -⟩ | ⟨_, -, rfl⟩⟩ := exec_command_next hc h
    · exact absurd rfl hnew
    · exact absurd rfl (hset w h')
    · exact ⟨by simp, by simp⟩

/-! ## STATUS and OUTPUT_VALID (R33, R34, R108) -/

/-- An error never records STATUS NONE (R170). -/
theorem errorStatus_ne_none (k : ErrorKind) : errorStatus k ≠ .none := by
  cases k <;> decide

/-- A command but NEW_CONTEXT keeps STATUS. -/
theorem exec_command_status {i : Instr} {s t : State} (hc : isCommand i = true) (h : exec i s = .next t)
    (hnew : i ≠ .newContext) : t.ctx.status = s.ctx.status := by
  obtain ⟨rfl, -⟩ | ⟨-, ⟨_, _, -, rfl⟩ | ⟨_, -, rfl⟩⟩ := exec_command_next hc h
  · exact absurd rfl hnew
  · simp
  · simp

/-- No command sets OUTPUT_VALID. -/
theorem exec_command_outputValid {i : Instr} {s t : State} (hc : isCommand i = true) (h : exec i s = .next t) :
    t.ctx.outputValid = false := by
  obtain ⟨-, -, rfl⟩ | ⟨-, ⟨_, _, -, rfl⟩ | ⟨_, -, rfl⟩⟩ := exec_command_next hc h <;> rfl

/-- A unit that changes STATUS ends the command, with a STATUS other than NONE. -/
theorem exec_unit_status {i : Instr} {s t : State} (hc : isCommand i = false) (h : exec i s = .next t) :
    (∃ input w stage, s.activity = .running input w stage) ∧
      (t.ctx.status = s.ctx.status ∨ (t.activity = .idle ∧ t.ctx.status ≠ .none)) := by
  obtain ⟨input, w, stage, hact, hend⟩ := exec_unit_next hc h
  refine ⟨⟨input, w, stage, hact⟩, ?_⟩
  obtain ⟨-, ⟨-, -, hst, -⟩, -⟩ | ⟨k, rfl⟩ | ⟨-, -, out, rfl⟩ := hend
  · exact .inl hst
  · exact .inr ⟨rfl, errorStatus_ne_none k⟩
  · exact .inr ⟨rfl, by simp⟩

/-- A unit that sets OUTPUT_VALID is CSC, which commits. -/
theorem exec_unit_outputValid {i : Instr} {s t : State} (hc : isCommand i = false) (h : exec i s = .next t)
    (hs : s.ctx.outputValid = false) (ht : t.ctx.outputValid = true) : i = .csc ∧ t.ctx.status = .ok := by
  obtain ⟨_, _, _, -, ⟨-, ⟨-, -, -, ho, -⟩, -⟩ | ⟨k, rfl⟩ | ⟨rfl, -, out, rfl⟩⟩ := exec_unit_next hc h
  · rw [ho, hs] at ht; cases ht
  · cases ht
  · exact ⟨rfl, rfl⟩

/-- Settles O37: commands and the units of a running command apart. -/
theorem statusChangesOnlyAtTheEnd : Obligations.StatusChangesOnlyAtTheEnd := by
  intro i s t h
  cases hc : isCommand i with
  | true =>
    refine ⟨fun hnew hne => absurd (exec_command_status hc h hnew) hne, fun _ ht => ?_⟩
    rw [exec_command_outputValid hc h] at ht
    cases ht
  | false =>
    obtain ⟨hrun, hst⟩ := exec_unit_status hc h
    exact ⟨fun _ hne => ⟨hrun, hst.resolve_left hne⟩, exec_unit_outputValid hc h⟩

/-! ## The state right after reset (R39) and what the host may read (R21, R195, R196) -/

/-- Settles O1: the reset table, entry by entry. -/
theorem resetIsTheEmptyContext : Obligations.ResetIsTheEmptyContext :=
  ⟨rfl, rfl, rfl, rfl⟩

/-- The host sees a context only of an idle core. -/
theorem hostView_eq_some {s : State} {c : Context} : hostView s = some c ↔ s.activity = .idle ∧ c = s.ctx := by
  unfold hostView
  cases s.activity <;> simp [@eq_comm _ c]

theorem hostView_running {s : State} {input : List Byte} {w : Work} {stage : Stage}
    (h : s.activity = .running input w stage) : hostView s = none := by
  simp only [hostView, h]

theorem hostBitmap_eq_some {s : State} {bitmap : List Byte} :
    hostBitmap s = some bitmap ↔ ∃ c, hostView s = some c ∧ c.outputValid = true ∧ bitmap = c.out := by
  unfold hostBitmap
  cases hostView s with
  | none => simp
  | some c => simp [@eq_comm _ bitmap]

/-- Settles O40: the bitmap is OUT of the context the host sees. -/
theorem hostReadsOnlyBetweenCommands : Obligations.HostReadsOnlyBetweenCommands := by
  intro s
  refine ⟨fun h => hostView_eq_some.2 ⟨h, rfl⟩, fun input w stage h => ?_, fun bitmap => ?_⟩
  · have hv := hostView_running h
    exact ⟨hv, by simp only [hostBitmap, hv]⟩
  · rw [hostBitmap_eq_some]
    constructor
    · rintro ⟨c, hv, ho, rfl⟩
      obtain ⟨hidle, rfl⟩ := hostView_eq_some.1 hv
      exact ⟨hidle, ho, rfl⟩
    · rintro ⟨hidle, ho, rfl⟩
      exact ⟨s.ctx, hostView_eq_some.2 ⟨hidle, rfl⟩, ho, rfl⟩

end Sys2Proof.Machine
end

section
/-! PROOFS. The memory rules of spec 20: no step reaches beyond an array (O43), the running message is held unchanged (O38),
the byte order of a 4-byte value (O29) and the array operations (O35). -/

namespace Sys2Proof.Machine

/-! ## No step reaches beyond an array (R51)

Between commands no array is accessed: a step is the idle step or a host command, and neither can fault. While a command
runs, the stage's part of the invariant gives a next state (`running_progress`). -/

theorem idleStep_ne_fault (s : State) (f : Fault) : idleStep s ≠ .fault f := by
  unfold idleStep
  cases s.activity <;> simp

/-- A host command is refused or has a next state; it accesses no array. -/
theorem exec_command_ne_fault {i : Instr} (hc : isCommand i = true) (s : State) (f : Fault) : exec i s ≠ .fault f := by
  intro h
  cases i with
  | newContext => simp only [exec, execNewContext] at h; split at h <;> cases h
  | setDimensions w h' => simp only [exec, execSetDimensions] at h; split at h <;> cases h
  | processMessage input => simp only [exec, execProcessMessage] at h; split at h <;> cases h
  | reserved => cases h
  | _ => cases hc

/-- Between commands a step is the idle step or the meaning of the host's next command (R186). -/
theorem step_between {s : State} (hact : s.activity = .idle ∨ s.activity = .uncreated) :
    step s = idleStep s ∨ ∃ i, isCommand i = true ∧ step s = exec i (afterFetch s) := by
  have hf := fetch_command hact
  cases hp : s.pending.head? with
  | none => exact .inl (by simp only [step, hf, hp, Option.map_none])
  | some c => exact .inr ⟨_, decodeCommand_isCommand c, by simp only [step, hf, hp, Option.map_some, decode]⟩

theorem step_between_ne_fault {s : State} (hact : s.activity = .idle ∨ s.activity = .uncreated) (f : Fault) :
    step s ≠ .fault f := by
  obtain hs | ⟨i, hc, hs⟩ := step_between hact
  · rw [hs]; exact idleStep_ne_fault s f
  · rw [hs]; exact exec_command_ne_fault hc _ f

/-- A running command that meets the invariant has a next state. -/
theorem running_has_next {s : State} {input : List Byte} {w : Work} {stage : Stage} (hinv : Inv s)
    (hact : s.activity = .running input w stage) : ∃ t, step s = .next t := by
  obtain ⟨t, ht, -⟩ := running_progress (RunsAt.of_inv hinv hact)
  exact ⟨t, ht⟩

/-- Settles O43: a running command always has a next state, and between commands no array is accessed. -/
theorem noStepReachesBeyondAnArray : Obligations.NoStepReachesBeyondAnArray := by
  intro s hinv
  refine ⟨fun f => ?_, fun input w stage hact => running_has_next hinv hact⟩
  cases hact : s.activity with
  | uncreated => exact step_between_ne_fault (.inr hact) f
  | idle => exact step_between_ne_fault (.inl hact) f
  | running input w stage =>
    obtain ⟨t, ht⟩ := running_has_next hinv hact
    rw [ht]
    nofun

/-! ## The message of a running command (R50, R62, R194) -/

/-- A host command has a next state only between commands (R193). -/
theorem exec_command_not_running {i : Instr} {s t : State} (hc : isCommand i = true) (h : exec i s = .next t)
    (input : List Byte) (w : Work) (stage : Stage) : s.activity ≠ .running input w stage := by
  obtain ⟨-, hact | hact, -⟩ | ⟨hact, -⟩ := exec_command_next hc h <;> rw [hact] <;> nofun

/-- Settles O38: a unit goes on with the same message, or its error or commit leaves the core idle. -/
theorem messageIsHeldUnchanged : Obligations.MessageIsHeldUnchanged := by
  intro i s t input w stage hact h
  cases hc : isCommand i with
  | true => exact absurd hact (exec_command_not_running hc h input w stage)
  | false =>
    obtain ⟨input', _, _, hact', hend⟩ := exec_unit_next hc h
    rw [hact] at hact'
    cases hact'
    obtain ⟨hrun, -⟩ | ⟨k, rfl⟩ | ⟨-, -, out, rfl⟩ := hend
    · exact .inr hrun
    · exact .inl (raiseError_activity k s)
    · exact .inl (commit_activity _)

/-! ## The byte order (R11, R53) -/

/-- Little endian: the first byte of the stream has weight 1. -/
theorem assemble32_le_toNat (b0 b1 b2 b3 : Byte) :
    (assemble32 .le b0 b1 b2 b3).toNat = b0.toNat + 256 * b1.toNat + 65536 * b2.toNat + 16777216 * b3.toNat := by
  have h0 := b0.isLt
  have h1 := b1.isLt
  have h2 := b2.isLt
  have h3 := b3.isLt
  rw [assemble32, BitVec.toNat_ofNat, Nat.mod_eq_of_lt (by omega)]

/-- Big endian reads the four bytes in the opposite order. -/
theorem assemble32_be_eq_le_reverse (b0 b1 b2 b3 : Byte) :
    assemble32 .be b0 b1 b2 b3 = assemble32 .le b3 b2 b1 b0 := rfl

/-- Settles O29: the sum of the weighted bytes is below 2^32, so none of it is lost. -/
theorem byteOrderSetsTheWeights : Obligations.ByteOrderSetsTheWeights := by
  intro b0 b1 b2 b3
  refine ⟨assemble32_le_toNat b0 b1 b2 b3, ?_⟩
  rw [assemble32_be_eq_le_reverse, assemble32_le_toNat]
  omega

/-! ## Arrays (R11, R51) -/

section
variable {α : Type} {sp : Space} {a a' xs : List α} {k n : Nat}

theorem readAt_error : readAt sp a n = .error (.arrayIndex sp) ↔ a.length ≤ n := by
  rw [← List.getElem?_eq_none_iff]
  unfold readAt
  cases a[n]? <;> simp

theorem writeAt_error (h : a.length < k + xs.length) : writeAt sp a k xs = .error (.arrayIndex sp) :=
  if_neg (Nat.not_le.2 h)

theorem readAt_writeAt_inside {x : α} (h : writeAt sp a k xs = .ok a') (hx : xs[n]? = some x) :
    readAt sp a' (k + n) = .ok x := by
  obtain ⟨hn, -⟩ := List.getElem?_eq_some_iff.1 hx
  rw [readAt_ok, writeAt_get h, if_pos ⟨by omega, by omega⟩, Nat.add_sub_cancel_left, hx]

theorem readAt_writeAt_outside (h : writeAt sp a k xs = .ok a') (hn : n < k ∨ k + xs.length ≤ n) :
    readAt sp a' n = readAt sp a n := by
  have hget : a'[n]? = a[n]? := by rw [writeAt_get h, if_neg (by omega)]
  simp only [readAt, hget]

end

/-- Settles O35: a write that fits, a write that does not, and a read beyond the length. -/
theorem writeThenReadAnArray : Obligations.WriteThenReadAnArray := by
  intro α sp a xs k
  refine ⟨fun hle => ?_, writeAt_error, fun n => readAt_error⟩
  obtain ⟨a', ha'⟩ := writeAt_fits sp a xs k hle
  exact ⟨a', ha', writeAt_length ha', fun n x => readAt_writeAt_inside ha', fun n => readAt_writeAt_outside ha'⟩

end Sys2Proof.Machine
end

section
/-! PROOFS. The encoding rules of spec 30: the decoder and the encoder are inverse (O31, O32), fixed words of the spec (O30),
code 11 (O5), the guards of the opcode table (O7), and a step as the meaning of the decoded unit (O33). -/

namespace Sys2Proof

/-! ## What the token decoder answers (R74 to R78)

One equation per token, in the order of the decoder's tests. -/

section
variable (bo : ByteOrder) {remaining : Nat} (after : List Byte)

theorem decodeToken_trail (h : remaining ≤ 4) (t u w z : Byte) :
    decodeToken bo remaining (t :: u :: w :: z :: after) = .ok (.trail t u w z) := if_pos h

theorem decodeToken_lit5 (v : Byte) : decodeToken bo 5 (v :: after) = .ok (.lit5 v) := rfl

/-- From `remaining = 6` on the reading no longer depends on `remaining`. -/
theorem decodeToken_of_six_le (h : 6 ≤ remaining) (bs : List Byte) : decodeToken bo remaining bs = decodeToken bo 6 bs := by
  have h4 : ¬ remaining ≤ 4 := by omega
  have h5 : remaining ≠ 5 := by omega
  unfold decodeToken
  simp only [if_neg h4, if_neg h5, if_neg (show ¬ 6 ≤ 4 by decide), if_neg (show 6 ≠ 5 by decide)]

theorem decodeToken_lit (h : 6 ≤ remaining) {v m : Byte} (hm : m ≠ v) :
    decodeToken bo remaining (v :: m :: after) = .ok (.lit v) := by
  rw [decodeToken_of_six_le bo h]
  exact if_pos hm

/-- Two equal bytes begin a run, and the third one tells its form. -/
theorem decodeToken_runs (h : 6 ≤ remaining) (v : Byte) {len : Byte} (hlen : len ≠ 0xFF#8) :
    decodeToken bo remaining (v :: v :: len :: after) = .ok (.runs v len) := by
  rw [decodeToken_of_six_le bo h]
  exact (if_neg (not_not_intro rfl)).trans (if_pos hlen)

theorem decodeToken_runl (h : 6 ≤ remaining) (v : Byte) (n : U32) :
    decodeToken bo remaining (v :: v :: 0xFF#8 :: (bytes32 bo n ++ after)) = .ok (.runl v n) := by
  obtain ⟨b0, b1, b2, b3, hb, hn⟩ := assemble32_bytes32 bo n
  rw [decodeToken_of_six_le bo h, hb, ← hn]
  exact if_neg (not_not_intro rfl)

/-! ## Decoding inverts encoding (R71 to R78, R82) -/

/-- A well-formed token's own bytes are read as that token in every context that admits it. -/
theorem decodeToken_encodeBytes {i : Instr} (hwf : i.wellFormed = true)
    (hadm : i.admittedBefore remaining after = true) :
    decodeToken bo remaining (encodeBytes bo i ++ after) = .ok i := by
  cases i with
  | lit5 v =>
    obtain rfl : remaining = 5 := by simpa only [Instr.admittedBefore, beq_iff_eq] using hadm
    exact decodeToken_lit5 bo after v
  | lit v =>
    cases after with
    | nil => simp [Instr.admittedBefore] at hadm
    | cons m after =>
      obtain ⟨h6, hm⟩ : 6 ≤ remaining ∧ m ≠ v := by simpa [Instr.admittedBefore] using hadm
      exact decodeToken_lit bo after h6 hm
  | runs v len => exact decodeToken_runs bo after (of_decide_eq_true hadm) v (bne_iff_ne.1 hwf)
  | runl v n => exact decodeToken_runl bo after (of_decide_eq_true hadm) v n
  | trail t u w z => exact decodeToken_trail bo after (of_decide_eq_true hadm) t u w z
  | _ => cases hadm

end

/-- A header is read from its own 20 bytes, whatever follows them (R71, R72). -/
theorem decodeHeader_encodeBytes (bo : ByteOrder) (a b c d : U32) (l sub x0 x1 : Byte) (after : List Byte) :
    decodeHeader bo (encodeBytes bo (.hdr a b c d l sub x0 x1) ++ after) = .ok (.hdr a b c d l sub x0 x1) := by
  have hlen : ¬ (encodeBytes bo (.hdr a b c d l sub x0 x1) ++ after).length < 20 := by
    rw [List.length_append, Laws.TokenLength.hdr]
    exact Nat.not_lt.2 (Nat.le_add_right _ _)
  rw [decodeHeader, if_neg hlen, encodeBytes]
  obtain ⟨a0, a1, a2, a3, ha, rfl⟩ := assemble32_bytes32 bo a
  obtain ⟨b0, b1, b2, b3, hb, rfl⟩ := assemble32_bytes32 bo b
  obtain ⟨c0, c1, c2, c3, hc, rfl⟩ := assemble32_bytes32 bo c
  obtain ⟨d0, d1, d2, d3, hd, rfl⟩ := assemble32_bytes32 bo d
  rw [ha, hb, hc, hd]
  rfl

/-- The byte after a literal in its shortest context differs from it, so no run begins there. -/
theorem complement_ne (v : Byte) : ~~~v ≠ v := by
  bv_omega

/-- The unit an instruction is encoded as decodes to it. -/
theorem decode_encode (bo : ByteOrder) {i : Instr} (hwf : i.wellFormed = true) : decode bo (encode bo i) = .ok i := by
  cases i with
  | hdr a b c d l sub x0 x1 =>
    have h := decodeHeader_encodeBytes bo a b c d l sub x0 x1 []
    rwa [List.append_nil] at h
  | lit v => exact decodeToken_lit bo [] (Nat.le_refl 6) (complement_ne v)
  | runs v len => exact decodeToken_runs bo [] (Nat.le_refl 6) v (bne_iff_ne.1 hwf)
  | runl v n =>
    have h := decodeToken_runl bo [] (Nat.le_refl 6) v n
    rwa [List.append_nil] at h
  | planeRle i => cases i <;> rfl
  | planeRaw i => cases i <;> rfl
  | _ => rfl

/-- Settles O31: the round trip of a unit, and the reading of a token's and a header's own bytes. -/
theorem decodingInvertsEncoding : Obligations.DecodingInvertsEncoding := by
  intro bo i hwf
  refine ⟨decode_encode bo hwf, fun remaining after => decodeToken_encodeBytes bo after hwf, ?_⟩
  rintro a b c d l sub x0 x1 after rfl
  exact decodeHeader_encodeBytes bo a b c d l sub x0 x1 after

/-! ## A decoded token is its bytes (R74 to R78) -/

/-- Settles O32, along the tests of the decoder: each token is the one whose bytes have just been read. -/
theorem decodedTokenIsItsBytes : Obligations.DecodedTokenIsItsBytes := by
  intro bo remaining bs i h
  unfold decodeToken at h
  split at h
  · next h4 =>
    split at h <;> cases h
    exact ⟨rfl, _, rfl, decide_eq_true h4⟩
  next h4 =>
  split at h
  · cases h
  split at h
  · next h5 =>
    cases h
    exact ⟨rfl, _, rfl, beq_iff_eq.2 h5⟩
  next h5 =>
  have h6 : 6 ≤ remaining := by omega
  split at h
  · cases h
  split at h
  · next hm =>
    cases h
    refine ⟨rfl, _, rfl, ?_⟩
    simp [Instr.admittedBefore, h6, hm]
  next hm =>
  obtain rfl := not_ne_iff.1 hm
  split at h
  · cases h
  split at h
  · next hlen =>
    cases h
    exact ⟨bne_iff_ne.2 hlen, _, rfl, decide_eq_true h6⟩
  next hlen =>
  obtain rfl := not_ne_iff.1 hlen
  split at h <;> cases h
  next n0 n1 n2 n3 after =>
  refine ⟨rfl, after, ?_, decide_eq_true h6⟩
  rw [encodeBytes, bytes32_assemble32]
  rfl

/-! ## Fixed words -/

/-- Settles O30: the decoder is run on each word. -/
theorem specWordsDecode : Obligations.SpecWordsDecode := by
  unfold Obligations.SpecWordsDecode
  decide

end Sys2Proof

namespace Sys2Proof.Machine

/-- Settles O5: the decoder's last case, and its meaning. -/
theorem reservedCommandIsRefused : Obligations.ReservedCommandIsRefused :=
  ⟨fun _ _ _ _ => rfl, fun _ => rfl⟩

/-! ## The guards of the opcode table (R73, R74, R85) -/

/-- A token is refused outside the token loop and where its guard on `remaining` fails. -/
theorem inTokenLoop_notSelected {s : State} {guard : Nat → Bool} (need : Nat) (run : List Byte → Work → PlaneId → Answer)
    (h : ∀ input w i, s.activity = .running input w (.tokens i) → guard w.remaining = false) :
    inTokenLoop s guard need run = .refused .notSelected := by
  unfold inTokenLoop
  split
  · next input w i hact => rw [h input w i hact]; rfl
  · rfl

/-- Settles O7: each unit answers only at its own stage and under its own condition. -/
theorem unitsOutOfPlaceAreRefused : Obligations.UnitsOutOfPlaceAreRefused := by
  intro i s hc hs
  cases i with
  | newContext => cases hc
  | setDimensions _ _ => cases hc
  | processMessage _ => cases hc
  | reserved => cases hc
  | lit5 v =>
    simp only [exec, execLit5]
    exact inTokenLoop_notSelected _ _ fun _ _ _ hact => by simpa only [standsAt, hact] using hs
  | lit v =>
    simp only [exec, execLit]
    exact inTokenLoop_notSelected _ _ fun _ _ _ hact => by simpa only [standsAt, hact] using hs
  | runs v len =>
    simp only [exec, execRuns]
    exact inTokenLoop_notSelected _ _ fun _ _ _ hact => by simpa only [standsAt, hact] using hs
  | runl v n =>
    simp only [exec, execRunl]
    exact inTokenLoop_notSelected _ _ fun _ _ _ hact => by simpa only [standsAt, hact] using hs
  | trail t u w z =>
    simp only [exec, execTrail]
    exact inTokenLoop_notSelected _ _ fun _ _ _ hact => by simpa only [standsAt, hact] using hs
  | hdr a b c d l sub x0 x1 =>
    simp only [exec, execHdr]
    split
    · next hact => simp [standsAt, hact] at hs
    · rfl
  | planeFill =>
    simp only [exec, execPlaneFill]
    split
    · next hact => rw [if_neg (by simpa [standsAt, hact] using hs)]
    · rfl
  | planeRle i =>
    simp only [exec, execPlaneRle]
    split
    · next hact => rw [if_neg (by simpa [standsAt, hact] using hs)]
    · rfl
  | planeRaw i =>
    simp only [exec, execPlaneRaw]
    split
    · next hact => rw [if_neg (by simpa [standsAt, hact] using hs)]
    · rfl
  | clx c =>
    simp only [exec, execClx]
    split
    · next hact => rw [if_neg (by simpa [standsAt, hact] using hs)]
    · rfl
  | ups c w2 =>
    simp only [exec, execUps]
    split
    · next hact => rw [if_neg (by simpa [standsAt, hact] using hs)]
    · rfl
  | csc =>
    simp only [exec, execCsc]
    split
    · next hact => simp [standsAt, hact] at hs
    · rfl

/-! ## A step runs the decoded unit (R70, R102) -/

/-- The core takes the command off the host's list. -/
theorem afterFetch_command {s : State} (h : s.activity = .idle ∨ s.activity = .uncreated) :
    afterFetch s = { s with pending := s.pending.tail } := by
  rcases h with h | h <;> simp only [afterFetch, h]

theorem step_command {s : State} {c : HostCommand} {rest : List HostCommand}
    (hact : s.activity = .idle ∨ s.activity = .uncreated) (hp : s.pending = c :: rest) :
    step s = exec (decodeCommand c) { s with pending := rest } := by
  have hf := fetch_command hact
  have ha := afterFetch_command hact
  rw [hp] at hf ha
  simp only [step, hf, ha, List.head?_cons, Option.map_some, decode, List.tail_cons]

/-- A running command's step, when its unit is known and decodes. -/
theorem step_unit {s : State} {input : List Byte} {w : Work} {stage : Stage} {u : FetchUnit} {i : Instr}
    (hact : s.activity = .running input w stage) (hu : fetch s = some u) (hi : decode s.params.byteOrder u = .ok i) :
    step s = exec i s := by
  obtain ⟨i', hi', hs⟩ | ⟨r, hr, -⟩ := step_running hact hu
  · cases hi.symm.trans hi'
    exact hs
  · cases hi.symm.trans hr

/-- Settles O33: the host's first command, or the unit of the stage that is reached. -/
theorem stepRunsTheDecodedUnit : Obligations.StepRunsTheDecodedUnit := by
  refine ⟨fun s c rest => step_command, fun s input w stage i hact hi => ?_⟩
  cases stage with
  | header => exact step_unit hact (u := .header input) (by simp only [fetch, hact]) hi
  | plane j => exact step_unit hact (u := .plane j _ _) (by simp only [fetch, hact]) (congrArg Except.ok hi)
  | tokens j => exact step_unit hact (u := .token w.remaining _) (by simp only [fetch, hact]) hi
  | clx c => exact step_unit hact (u := .clx c) (by simp only [fetch, hact]) (congrArg Except.ok hi.symm)
  | ups c => exact step_unit hact (u := .ups c _) (by simp only [fetch, hact]) (congrArg Except.ok hi.symm)
  | csc => exact step_unit hact (u := .csc) (by simp only [fetch, hact]) (congrArg Except.ok hi.symm)

end Sys2Proof.Machine
end

section
/-! PROOFS. The host commands of spec 40, each step of them: NEW_CONTEXT (O2), SET_DIMENSIONS (O3), PROCESS_MESSAGE's first
line (O4), the header unit (O9) and the units that are cut off (O12). -/

namespace Sys2Proof.Machine

/-! ## The commands (R100 to R102) -/

/-- Settles O2: before the first NEW_CONTEXT and on an idle core alike. -/
theorem newContextResetsEveryField : Obligations.NewContextResetsEveryField := by
  intro s hact
  obtain hact | hact := hact
  · simp only [exec, execNewContext, hact, withActivity, withContext, State.reset]
  · simp only [exec, execNewContext, hact, withActivity, withContext, State.reset]

/-- The header fields are those of NEW_CONTEXT while no message has completed, and SET_DIMENSIONS leaves them (R35). -/
theorem invalidate_keepsHeader (P : Params) (d : Nat) {c : Context} (h : c.status = .none) :
    (invalidate P d c).colorLossLevel = c.colorLossLevel ∧ (invalidate P d c).subsampling = c.subsampling ∧
    (invalidate P d c).planeByteCount = c.planeByteCount ∧ (invalidate P d c).planeTargetSize = c.planeTargetSize := by
  rw [invalidate_none P d h]
  exact ⟨rfl, rfl, rfl, rfl⟩

theorem execSetDimensions_idle (w h : U32) {s : State} (hact : s.activity = .idle) :
    exec (.setDimensions w h) s = .next (countDraw (withContext s
      (clearValid { invalidate s.params s.draws s.ctx with width := w, height := h }))) := by
  simp only [exec, execSetDimensions, hact]

/-- Settles O3: what is unspecified afterwards is neither STATUS nor, before the first message, a header field. -/
theorem setDimensionsWritesTheSizes : Obligations.SetDimensionsWritesTheSizes := fun w h s hact =>
  ⟨_, execSetDimensions_idle w h hact, rfl, rfl, rfl, rfl, invalidate_status s.params s.draws s.ctx,
    invalidate_keepsHeader s.params s.draws, hact, rfl, rfl⟩

theorem execProcessMessage_idle (input : List Byte) {s : State} (hact : s.activity = .idle) :
    exec (.processMessage input) s = .next (countDraw (withActivity (withContext s (clearValid s.ctx))
      (.running input (unsetWork s.draws) .header))) := by
  simp only [exec, execProcessMessage, hact]

/-- Settles O4: the command starts with its working registers unset. -/
theorem processMessageStartsAtTheHeader : Obligations.ProcessMessageStartsAtTheHeader := fun input _ hact =>
  ⟨_, _, execProcessMessage_idle input hact, rfl, rfl, rfl, rfl⟩

/-! ## The header unit (R103 to R107) -/

section
variable {s : State} {input : List Byte} {w : Work} (hact : s.activity = .running input w .header)
  (hlen : 20 ≤ input.length) {a b c d : U32} {l sub : Byte} (x0 x1 : Byte)
include hact hlen

/-- The first check that fails after the header's length is the error the header unit raises (R173). -/
theorem execHdr_error {k : ErrorKind}
    (hp : prepare s.params s.draws input.length (parseHeader s.ctx a b c d l sub) = .error k) :
    exec (.hdr a b c d l sub x0 x1) s = .next (raiseError k s) := by
  simp only [exec, execHdr, hact, if_neg (Nat.not_lt.2 hlen), hp]

/-- When no check fails, the prepared context and the plane bases are taken, and plane Y is next. -/
theorem execHdr_prepared {base : PerPlane Nat} {c' : Context}
    (hp : prepare s.params s.draws input.length (parseHeader s.ctx a b c d l sub) = .ok (base, c')) :
    exec (.hdr a b c d l sub x0 x1) s =
      .next (countDraw (withActivity (withContext s c') (.running input { w with base := base } (.plane .y)))) := by
  simp only [exec, execHdr, hact, if_neg (Nat.not_lt.2 hlen), hp]

end

/-- The target sizes of R106, written out for both values of SUBSAMPLING. -/
theorem targetSizes_decide (sub : Byte) (w h : Nat) :
    targetSizes (decide (sub ≠ 0)) w h =
      if sub ≠ 0 then ⟨pad8 w * h, pad8 w / 2 * (pad2 h / 2), pad8 w / 2 * (pad2 h / 2), w * h⟩
      else ⟨w * h, w * h, w * h, w * h⟩ := by
  simp only [targetSizes, decide_eq_true_eq]

/-- Settles O9: every check of the header unit passes, so what it leaves is the allocated context. -/
theorem headerPreparesTheBuffers : Obligations.HeaderPreparesTheBuffers := by
  intro a b c d l sub x0 x1 s input w hact hlen hw hh hsizes halloc
  have hp := prepare_ok (draw := s.draws) (c := parseHeader s.ctx a b c d l sub) hlen ⟨hw, hh, hsizes⟩ halloc
  exact ⟨_, execHdr_prepared hact (by omega) x0 x1 hp, rfl, rfl, targetSizes_decide sub _ _,
    allocated_plane_length s.draws _, freeSamples_length _ _ _, freeSamples_length _ _ _, rfl, rfl⟩

/-! ## Units that are cut off (R103, R123, R127, R128) -/

/-- A running command's step, when its unit is known and decodes to nothing. -/
theorem step_rejected {s : State} {input : List Byte} {w : Work} {stage : Stage} {u : FetchUnit} {r : Reject}
    (hact : s.activity = .running input w stage) (hu : fetch s = some u) (hr : decode s.params.byteOrder u = .error r) :
    step s = .next (raiseError (rejectError r) s) := by
  obtain ⟨i, hi, -⟩ | ⟨r', hr', hs⟩ := step_running hact hu
  · cases hr.symm.trans hi
  · cases hr.symm.trans hr'
    exact hs

/-- Every way in which a token can be cut off is CorruptRunLength, along the tests of the decoder. -/
theorem rejectError_of_decodeToken {bo : ByteOrder} {remaining : Nat} {bs : List Byte} {r : Reject}
    (h : decodeToken bo remaining bs = .error r) : rejectError r = .corruptRunLength := by
  unfold decodeToken at h
  split at h
  · split at h <;> cases h
    rfl
  split at h
  · cases h; rfl
  split at h
  · cases h
  split at h
  · cases h; rfl
  split at h
  · cases h
  split at h
  · cases h; rfl
  split at h
  · cases h
  split at h <;> cases h
  rfl

theorem step_shortHeader {s : State} {input : List Byte} {w : Work} (hact : s.activity = .running input w .header)
    (hlen : input.length < 20) : step s = .next (raiseError .malformedHeader s) :=
  step_rejected hact (u := .header input) (by simp only [fetch, hact]) (if_pos hlen)

/-- Settles O12: the header has one way to be cut off, a token five. -/
theorem truncatedUnitRaisesItsError : Obligations.TruncatedUnitRaisesItsError := by
  intro s input w
  refine ⟨step_shortHeader, fun i r hact hr => ?_⟩
  rw [← rejectError_of_decodeToken hr]
  exact step_rejected hact (u := .token w.remaining _) (by simp only [fetch, hact]) hr

end Sys2Proof.Machine
end

section
/-! PROOFS. PROCESS_MESSAGE as a whole (spec 40, R102): the steps of a message end at the reference function's answer (O44),
so the answer depends on the message, the dimensions and the parameters alone (O45). -/

namespace Sys2Proof.Machine

/-! ## Runs that end with an answer -/

/-- `c` is what a message with the answer `r` leaves on `width` by `height`: the whole context on success; STATUS, the
cleared valid bits and the dimensions on an error (R172). -/
def Leaves (width height : U32) (c : Context) : Except ErrorKind Context → Prop
  | .ok c' => c = c'
  | .error k => c.status = errorStatus k ∧ c.outputValid = false ∧ c.buffersValid = false ∧
      c.width = width ∧ c.height = height

/-- Within `b` steps the running command is over, and its answer is `r`. -/
def Ends (b : Nat) (s : State) (r : Except ErrorKind Context) : Prop :=
  ∃ n t, n ≤ b ∧ RunsTo n s t ∧ t.activity = .idle ∧ t.pending = s.pending ∧ t.params = s.params ∧
    Leaves s.ctx.width s.ctx.height t.ctx r

theorem Fails.ends {b : Nat} {s : State} {k : ErrorKind} (h : Fails b s k) : Ends b s (.error k) := h

/-- What an answer is measured against: the host's list, the parameters and the dimensions are as they were. -/
def SameSetting (s t : State) : Prop :=
  t.pending = s.pending ∧ t.params = s.params ∧ t.ctx.width = s.ctx.width ∧ t.ctx.height = s.ctx.height

/-- An answer after a first run. -/
theorem Ends.after {n b : Nat} {s t : State} {r : Except ErrorKind Context} (hrun : RunsTo n s t)
    (hsame : SameSetting s t) (h : Ends b t r) : Ends (n + b) s r := by
  obtain ⟨hpending, hparams, hwidth, hheight⟩ := hsame
  obtain ⟨m, u, hm, hu, hidle, hpu, hqu, hleaves⟩ := h
  rw [hwidth, hheight] at hleaves
  exact ⟨n + m, u, Nat.add_le_add_left hm n, run_add hu hrun, hidle, hpu.trans hpending, hqu.trans hparams, hleaves⟩

theorem Ends.mono {b b' : Nat} {s : State} {r : Except ErrorKind Context} (h : Ends b s r) (hb : b ≤ b') :
    Ends b' s r := by
  obtain ⟨n, t, hn, hrest⟩ := h
  exact ⟨n, t, hn.trans hb, hrest⟩

theorem runsTo_one {s t : State} (h : step s = .next t) : RunsTo 1 s t := run_cons h rfl

/-- The first step of a longer run. -/
theorem run_uncons {n : Nat} {s t : State} (h : RunsTo (n + 1) s t) : ∃ s₁, step s = .next s₁ ∧ RunsTo n s₁ t := by
  simp only [RunsTo, Host.Core.run] at h
  split at h
  · next s₁ hs => exact ⟨s₁, hs, h⟩
  · cases h
  · cases h

/-- The invariant holds at the end of a run that begins with it. -/
theorem inv_run {t : State} : ∀ {n : Nat} {s : State}, RunsTo n s t → Inv s → Inv t
  | 0, s, h, hinv => by cases h; exact hinv
  | n + 1, s, h, hinv => by
    obtain ⟨s₁, hs, hrun⟩ := run_uncons h
    exact inv_run hrun (everyStepKeepsTheInvariant s s₁ hinv hs)

/-! ## From CLX to the bitmap (R140, R150, R160, R108) -/

/-- The context after a committed CSC. -/
def converted (c : Context) : Context :=
  commitContext (setOut c (refBitmap c.subsampling c.width.toNat c.height.toNat c.plane.y c.co c.cg c.plane.alpha))

/-- A chroma array after UPS of the command's own row length. -/
def upsampled (c : Context) (ch : Chroma) : Context :=
  setChroma c ch (refUpsample (chromaGet c ch) (pad8 c.width.toNat / 2))

/-- A chroma array after CLX. -/
def expanded (c : Context) (ch : Chroma) : Context :=
  setChroma c ch (expandPlane c.colorLossLevel (planeGet c.plane (chromaPlane ch)))

/-- Both chroma arrays at full resolution, when both planes are expanded (R151). -/
def fullResolution (c : Context) : Context :=
  if c.subsampling then upsampled (upsampled c .co) .cg else c

theorem fullResolution_of_sub {c : Context} (h : c.subsampling = true) :
    fullResolution c = upsampled (upsampled c .co) .cg := if_pos h

theorem fullResolution_of_not_sub {c : Context} (h : c.subsampling = false) : fullResolution c = c :=
  if_neg (Bool.eq_false_iff.1 h)

/-- A chroma array at full resolution, from its plane (R140, R150). -/
def fullChroma (c : Context) (ch : Chroma) : List Sample :=
  if c.subsampling then
    refUpsample (expandPlane c.colorLossLevel (planeGet c.plane (chromaPlane ch))) (pad8 c.width.toNat / 2)
  else expandPlane c.colorLossLevel (planeGet c.plane (chromaPlane ch))

/-- What a message leaves whose four planes are decoded. -/
def finished (c : Context) : Context :=
  converted (setChroma (setChroma c .co (fullChroma c .co)) .cg (fullChroma c .cg))

/-- The pipeline of R59 makes the two arrays of the reference. -/
theorem finished_eq (c : Context) :
    finished c = converted (fullResolution (expanded (expanded c .co) .cg)) := by
  cases hsub : c.subsampling with
  | true =>
    rw [fullResolution_of_sub (c := expanded (expanded c .co) .cg) hsub, finished, fullChroma, fullChroma, if_pos hsub,
      if_pos hsub]
    rfl
  | false =>
    rw [fullResolution_of_not_sub (c := expanded (expanded c .co) .cg) hsub, finished, fullChroma, fullChroma,
      if_neg (Bool.eq_false_iff.1 hsub), if_neg (Bool.eq_false_iff.1 hsub)]
    rfl

theorem step_csc {s : State} {input : List Byte} {w : Work} (hinv : Inv s) (hact : s.activity = .running input w .csc) :
    ∃ t, step s = .next t ∧ t.activity = .idle ∧ t.pending = s.pending ∧ t.params = s.params ∧
      t.ctx = converted s.ctx := by
  have hc : buffersComplete s.ctx := (RunsAt.of_inv hinv hact).inv
  have ⟨⟨_, _, _, _, hsize⟩, _, _⟩ := hc
  obtain ⟨out, ho, hf⟩ := convertImage_spec (cscReady_of_complete hc) w hsize
  refine ⟨commit (withContext s (setOut s.ctx out)), ?_, rfl, rfl, rfl, ?_⟩
  · rw [stepRunsTheDecodedUnit.2 s input w .csc _ hact rfl]
    simp only [exec, execCsc, hact, ho, ok_bind, pure_eq_ok, answerOf_ok]
  · rw [outFilled_eq hf]; rfl

theorem step_clx {s : State} {input : List Byte} {w : Work} {ch : Chroma} (hact : s.activity = .running input w (.clx ch)) :
    step s = .next (withActivity (withContext s (expanded s.ctx ch))
      (.running input w (stageAfterClx s.ctx.subsampling ch))) := by
  rw [stepRunsTheDecodedUnit.2 s input w (.clx ch) _ hact rfl]
  simp only [exec, execClx, hact, if_true]
  rfl

/-- UPS at its stage has the geometry of R150, and its result is the closed form. -/
theorem step_ups {s : State} {input : List Byte} {w : Work} {ch : Chroma} (hinv : Inv s)
    (hact : s.activity = .running input w (.ups ch)) :
    ∃ w', step s = .next (countDraw (withActivity (withContext s (upsampled s.ctx ch))
      (.running input w' (stageAfterUps ch)))) := by
  have hrun := RunsAt.of_inv hinv hact
  obtain ⟨hb, hsub, he⟩ : buffersSized s.ctx ∧ s.ctx.subsampling = true ∧ chromaExpanded s.ctx ch := by
    cases ch with
    | co => obtain ⟨hb, hs, hco, -⟩ := hrun.inv; exact ⟨hb, hs, hco⟩
    | cg => obtain ⟨hb, hs, -, hcg⟩ := hrun.inv; exact ⟨hb, hs, hcg⟩
  have hlen : (chromaGet s.ctx ch).length = pad2 s.ctx.height.toNat / 2 * (pad8 s.ctx.width.toNat / 2) := by
    rw [he.1, chroma_target_sub hb hsub]
  have hw2 := pad8_half_pos (toNat_pos hb.1)
  obtain ⟨hg, -⟩ := upsample_full hb hsub he w s.draws
  obtain ⟨w', b, hu, -, hbl, hget⟩ := upsample_spec (chromaSpace ch) w hw2 hlen
    (freeSamples_length s.draws 0 (4 * (chromaGet s.ctx ch).length))
  refine ⟨w', ?_⟩
  rw [stepRunsTheDecodedUnit.2 s input w (.ups ch) _ hact rfl, upsampled, ← upsample_eq hw2 hlen hbl hget]
  simp only [exec, execUps, hact, if_true, hg, hu, ok_bind, pure_eq_ok, answerOf_ok]

/-- One step to a state from which the answer is known. -/
theorem Ends.step {b : Nat} {s t : State} {r : Except ErrorKind Context} (hinv : Inv s) (hs : step s = .next t)
    (hsame : SameSetting s t) (h : Inv t → Ends b t r) : Ends (b + 1) s r := by
  rw [Nat.add_comm]
  exact .after (runsTo_one hs) hsame (h (everyStepKeepsTheInvariant s t hinv hs))

section
variable {s : State} {input : List Byte} {w : Work} (hinv : Inv s)
include hinv

theorem ends_at_csc (hact : s.activity = .running input w .csc) : Ends 1 s (.ok (converted s.ctx)) := by
  obtain ⟨t, hs, hrest⟩ := step_csc hinv hact
  exact ⟨1, t, Nat.le_refl 1, runsTo_one hs, hrest⟩

theorem ends_at_ups_cg (hact : s.activity = .running input w (.ups .cg)) :
    Ends 2 s (.ok (converted (upsampled s.ctx .cg))) := by
  obtain ⟨w', hs⟩ := step_ups hinv hact
  exact .step hinv hs ⟨rfl, rfl, rfl, rfl⟩ fun hinv' => ends_at_csc hinv' rfl

theorem ends_at_ups_co (hact : s.activity = .running input w (.ups .co)) :
    Ends 3 s (.ok (converted (upsampled (upsampled s.ctx .co) .cg))) := by
  obtain ⟨w', hs⟩ := step_ups hinv hact
  exact .step hinv hs ⟨rfl, rfl, rfl, rfl⟩ fun hinv' => ends_at_ups_cg hinv' rfl

/-- CLX of Cg is followed by UPS of both arrays or by CSC, as SUBSAMPLING says (R85, R153). -/
theorem ends_at_clx_cg (hact : s.activity = .running input w (.clx .cg)) :
    Ends 4 s (.ok (converted (fullResolution (expanded s.ctx .cg)))) := by
  have hs := step_clx hact
  cases hsub : s.ctx.subsampling with
  | true =>
    rw [hsub] at hs
    rw [fullResolution_of_sub (c := expanded s.ctx .cg) hsub]
    exact .step hinv hs ⟨rfl, rfl, rfl, rfl⟩ fun hinv' => ends_at_ups_co hinv' rfl
  | false =>
    rw [hsub] at hs
    rw [fullResolution_of_not_sub (c := expanded s.ctx .cg) hsub]
    exact .step hinv hs ⟨rfl, rfl, rfl, rfl⟩ fun hinv' => (ends_at_csc hinv' rfl).mono (Nat.le_add_left 1 2)

theorem ends_at_clx_co (hact : s.activity = .running input w (.clx .co)) : Ends 5 s (.ok (finished s.ctx)) := by
  rw [finished_eq]
  exact .step hinv (step_clx hact) ⟨rfl, rfl, rfl, rfl⟩ fun hinv' => ends_at_clx_cg hinv' rfl

end

/-! ## The four planes (R120 to R129) -/

/-- The payload of plane `i` (R72, R104). -/
def payloadOf (c : Context) (input : List Byte) (i : PlaneId) : List Byte :=
  (input.drop (planeGet (planeBases c.planeByteCount) i)).take (planeGet c.planeByteCount i).toNat

/-- What the payload of plane `i` stands for. -/
def decodedPlane (P : Params) (input : List Byte) (c : Context) (i : PlaneId) : Option (List Byte) :=
  refPlane P.strictTrailer P.byteOrder i (planeGet c.planeTargetSize i) (payloadOf c input i)

theorem payloadOf_length {c : Context} {input : List Byte} {w : Work} (h : planesLocated c input w) (i : PlaneId) :
    (payloadOf c input i).length = (planeGet c.planeByteCount i).toNat := by
  have hin := payload_inside h i
  rw [h.1] at hin
  rw [payloadOf, List.length_take, List.length_drop]
  omega

/-- A plane written whole by one step, with its decoding. -/
theorem tokGoal_of_finishPlane {s : State} {input : List Byte} {w : Work} {i : PlaneId} {bytes : List Byte} {n : Nat}
    (hs : step s = answerOf (finishPlane s input w i bytes)) (hlen : bytes.length = (planeGet s.ctx.plane i).length)
    (hn : 1 ≤ n) : TokGoal s input w i n [] (some bytes) := by
  rw [finishPlane_whole s input w i bytes hlen] at hs
  exact ⟨1, _, w, hn, runsTo_one hs, rfl, rfl, rfl, rfl, rfl⟩

/-- A step before the token loop, which has touched nothing but the working registers. -/
theorem TokGoal.after_step {s : State} {input : List Byte} {w w' : Work} {i : PlaneId} {stage : Stage} {n : Nat}
    {r : Option (List Byte)} (hs : step s = .next (withActivity s (.running input w' stage))) (hbase : w'.base = w.base)
    (h : TokGoal (withActivity s (.running input w' stage)) input w' i n [] r) : TokGoal s input w i (n + 1) [] r := by
  cases r with
  | none => exact (fails_later hs rfl rfl rfl rfl h : Fails _ _ _)
  | some l => exact comes_later hs rfl rfl (hbase ▸ h : Comes _ _ _ w.base _ _)

/-- The working registers PLANE.RLE sets (R123). -/
def tokenWork (c : Context) (w : Work) (i : PlaneId) : Work :=
  { w with
    p := planeGet w.base i
    stop := planeGet w.base i + (planeGet c.planeByteCount i).toNat
    o := 0
    remaining := planeGet c.planeTargetSize i }

/-- The token loop as PLANE.RLE enters it: the whole payload to read, the whole plane to write (R123). -/
theorem tokAt_entry {s : State} {input : List Byte} {w : Work} {i : PlaneId} (hl : planesLocated s.ctx input w)
    (hsize : (planeGet s.ctx.plane i).length = planeGet s.ctx.planeTargetSize i) :
    TokAt s.params (withActivity s (.running input (tokenWork s.ctx w i) (.tokens i))) input (tokenWork s.ctx w i) i
      (planeGet s.ctx.planeTargetSize i) (payloadOf s.ctx input i) [] (planeGet s.ctx.plane i) where
  act := rfl
  params := rfl
  remE := rfl
  pstop := Nat.le_add_right _ _
  stopin := payload_inside hl i
  win := by
    show (input.drop (planeGet w.base i)).take (_ - planeGet w.base i) = _
    rw [show (tokenWork s.ctx w i).stop = planeGet w.base i + _ from rfl, Nat.add_sub_cancel_left, hl.1]
    rfl
  plane := rfl
  o := rfl
  oldlen := hsize

section
variable {s : State} {input : List Byte} {w : Work} {i : PlaneId}

theorem execPlaneFill_selected (hact : s.activity = .running input w (.plane i)) (hf : selectsFill s.ctx i = true) :
    exec .planeFill s =
      answerOf (finishPlane s input w i (List.replicate (planeGet s.ctx.planeTargetSize i) 0xFF#8)) := by
  simp only [exec, execPlaneFill, hact, if_pos hf]

theorem execPlaneRle_selected (hact : s.activity = .running input w (.plane i)) (hr : selectsRle s.ctx i = true) :
    exec (.planeRle i) s = .next (withActivity s (.running input (tokenWork s.ctx w i) (.tokens i))) := by
  simp only [exec, execPlaneRle, hact, hr, and_self, if_true]
  rfl

/-- A payload that reaches as far as the copy does is copied. -/
theorem execPlaneRaw_selected (hact : s.activity = .running input w (.plane i)) (hr : selectsRaw s.ctx i = true)
    (hin : planeGet w.base i + planeGet s.ctx.planeTargetSize i ≤ input.length) :
    exec (.planeRaw i) s = answerOf (finishPlane s input w i
      ((input.drop (planeGet w.base i)).take (planeGet s.ctx.planeTargetSize i))) := by
  simp only [exec, execPlaneRaw, hact, hr, and_self, if_true]
  rw [readRange_ok.2 ⟨hin, rfl⟩, ok_bind]

/-- Plane `i` by its mode: filled or copied in one step, or run through the token loop (R120 to R123). -/
theorem plane_goal (hinv : Inv s) (hact : s.activity = .running input w (.plane i)) :
    TokGoal s input w i ((planeGet s.ctx.planeByteCount i).toNat + 1) [] (decodedPlane s.params input s.ctx i) := by
  obtain ⟨⟨-, -, -, hsizes, -⟩, hl⟩ : buffersSized s.ctx ∧ planesLocated s.ctx input w := (RunsAt.of_inv hinv hact).inv
  have hsize := allPlanes_iff.1 hsizes i
  have hlen := payloadOf_length hl i
  have hs := stepRunsTheDecodedUnit.2 s input w (.plane i) _ hact rfl
  rw [decodePlane_eq] at hs
  rw [decodedPlane, refPlane, hlen]
  cases hf : selectsFill s.ctx i with
  | true =>
    rw [if_pos hf, execPlaneFill_selected hact hf] at hs
    rw [if_pos ((selectsFill_iff s.ctx i).1 hf)]
    exact tokGoal_of_finishPlane hs (by rw [List.length_replicate, hsize]) (Nat.le_add_left 1 _)
  | false =>
    have hf' := Bool.eq_false_iff.1 hf
    rw [if_neg hf'] at hs
    rw [if_neg (mt (selectsFill_iff s.ctx i).2 hf')]
    by_cases hlt : (planeGet s.ctx.planeByteCount i).toNat < planeGet s.ctx.planeTargetSize i
    · have hr := (selectsRle_iff s.ctx i).2 ⟨hf, hlt⟩
      rw [if_pos hr, execPlaneRle_selected hact hr] at hs
      rw [if_pos hlt, ← hlen]
      exact .after_step hs rfl (tokens_goal _ _ _ (P := s.params) (tokAt_entry hl hsize) (Nat.le_refl _))
    · have hle := Nat.le_of_not_lt hlt
      have hin := (Nat.add_le_add_left hle _).trans (payload_inside hl i)
      rw [if_neg fun h => hlt ((selectsRle_iff s.ctx i).1 h).2,
        execPlaneRaw_selected hact ((selectsRaw_iff s.ctx i).2 ⟨hf, hle⟩) hin] at hs
      rw [if_neg hlt, payloadOf, List.take_take, Nat.min_eq_left hle, ← hl.1]
      refine tokGoal_of_finishPlane hs ?_ (Nat.le_add_left 1 _)
      rw [List.length_take, List.length_drop, hsize]
      omega

end

/-- A stream that stands for no plane is CorruptRunLength. -/
def planeAnswer : Option Context → Except ErrorKind Context
  | some c => .ok c
  | none => .error .corruptRunLength

/-- The order in which the planes are decoded (R59, R102). -/
def planeOrder : List PlaneId := [.y, .co, .cg, .alpha]

/-- The stage at which the planes `left` are still to be decoded. -/
def stageOf : List PlaneId → Stage
  | [] => .clx .co
  | i :: _ => .plane i

theorem stageAfterPlane_eq {i : PlaneId} {left : List PlaneId} (h : i :: left <:+ planeOrder) :
    stageAfterPlane i = stageOf left := by
  simp only [planeOrder, List.suffix_cons_iff, List.cons.injEq, List.suffix_nil, reduceCtorEq, or_false] at h
  obtain ⟨rfl, rfl⟩ | ⟨rfl, rfl⟩ | ⟨rfl, rfl⟩ | ⟨rfl, rfl⟩ := h <;> rfl

/-- What a context becomes when the planes `left` are decoded in their order, and then the chroma planes and the bitmap. -/
def decodedContext (P : Params) (input : List Byte) : List PlaneId → Context → Option Context
  | [], c => some (finished c)
  | i :: left, c => (decodedPlane P input c i).bind fun l => decodedContext P input left (setPlane c i l)

/-- The steps the planes `left` take at most: one for each payload byte, one to enter the token loop and one for an error;
then five from CLX to the bitmap. -/
def planeSteps (c : Context) (left : List PlaneId) : Nat :=
  (left.map fun i => (planeGet c.planeByteCount i).toNat + 2).sum + 5

/-- Plane by plane, along the reference: a plane that is no plane ends the message, any other one leads to the next. -/
theorem ends_at_planes : ∀ (left : List PlaneId) {s : State} {input : List Byte} {w : Work}, left <:+ planeOrder →
    Inv s → s.activity = .running input w (stageOf left) →
    Ends (planeSteps s.ctx left) s (planeAnswer (decodedContext s.params input left s.ctx))
  | [], _, _, _, _, hinv, hact => ends_at_clx_co hinv hact
  | i :: left, s, input, w, hleft, hinv, hact => by
    have hgoal := plane_goal hinv hact
    rw [planeSteps, List.map_cons, List.sum_cons, Nat.add_assoc, decodedContext]
    cases hd : decodedPlane s.params input s.ctx i with
    | none =>
      rw [hd] at hgoal
      exact (Fails.ends hgoal).mono (Nat.le_add_right _ _)
    | some l =>
      rw [hd] at hgoal
      obtain ⟨n, t, w', hn, hrun, hact', -, hctx, hpending, hparams⟩ := hgoal
      have hctx : t.ctx = setPlane s.ctx i l := hctx
      rw [stageAfterPlane_eq hleft] at hact'
      have hrest := ends_at_planes left ((List.suffix_cons i left).trans hleft) (inv_run hrun hinv) hact'
      rw [hctx, hparams] at hrest
      refine (hrest.after hrun ⟨hpending, hparams, by rw [hctx]; rfl, by rw [hctx]; rfl⟩).mono ?_
      show n + planeSteps s.ctx left ≤ _ + planeSteps s.ctx left
      omega

/-! ## The header and the reference function (R103 to R107, R173) -/

/-- The context whose header fields are those of the message (R71, R72). -/
def parsed (bo : ByteOrder) (input : List Byte) (c : Context) : Context :=
  parseHeader c (memRead32 bo input 0) (memRead32 bo input 4) (memRead32 bo input 8) (memRead32 bo input 12)
    (memRead8 input 16) (memRead8 input 17)

theorem refMessage_short (P : Params) (width height : U32) {input : List Byte} (h : input.length < 20) :
    refMessage P width height input = .error .malformedHeader := if_pos h

/-- The dimensions are supported unless one is 0 or a size is above MAX_SIZE. -/
theorem dimensionsOk_iff {P : Params} {c : Context} :
    dimensionsOk P c ↔ ¬ (c.width.toNat = 0 ∨ c.height.toNat = 0 ∨
      (checkedSizes c.subsampling c.width.toNat c.height.toNat).any (fun n => decide (n > P.maxSize)) = true) := by
  simp only [dimensionsOk, not_or, List.any_eq_true, decide_eq_true_eq, not_exists, not_and, Nat.not_lt, gt_iff_lt,
    ne_eq, ← BitVec.toNat_inj]
  rfl

/-- The context the header unit makes of `c` when no check fails. -/
def prepared (bo : ByteOrder) (draw : Nat) (input : List Byte) (c : Context) : Context :=
  allocated draw (computeSizes (parsed bo input c))

/-- The planes decode to a context exactly when each of them decodes. -/
theorem decodedContext_planeOrder {P : Params} {input : List Byte} {c d : Context} :
    decodedContext P input planeOrder c = some d ↔ ∃ y co cg alpha,
      decodedPlane P input c .y = some y ∧ decodedPlane P input c .co = some co ∧
      decodedPlane P input c .cg = some cg ∧ decodedPlane P input c .alpha = some alpha ∧
      d = finished { c with plane := ⟨y, co, cg, alpha⟩ } := by
  simp only [planeOrder, decodedContext, Option.bind_eq_some_iff, Option.some.injEq]
  constructor
  · rintro ⟨y, hy, co, hco, cg, hcg, alpha, halpha, rfl⟩
    exact ⟨y, co, cg, alpha, hy, hco, hcg, halpha, rfl⟩
  · rintro ⟨y, co, cg, alpha, hy, hco, hcg, halpha, rfl⟩
    exact ⟨y, hy, co, hco, cg, hcg, alpha, halpha, rfl⟩

/-- The reference function when the checks of the header pass: the planes decide. The free values in the prepared context
are all written over. -/
theorem refMessage_prepared {P : Params} (draw : Nat) {input : List Byte} {c : Context} (h : ¬ input.length < 20)
    (hl : 20 + payloadTotal (parsed P.byteOrder input c).planeByteCount ≤ input.length)
    (hd : dimensionsOk P (parsed P.byteOrder input c))
    (hn : canAllocate P (neededSizes (parsed P.byteOrder input c).subsampling c.width.toNat c.height.toNat) = true) :
    refMessage P c.width c.height input =
      planeAnswer (decodedContext P input planeOrder (prepared P.byteOrder draw input c)) := by
  refine (if_neg h).trans ((if_neg (Nat.not_lt.2 hl)).trans ((if_neg (dimensionsOk_iff.1 hd)).trans
    ((if_neg (ne_of_eq_of_ne hn Bool.noConfusion)).trans ?_)))
  split
  · next y co cg alpha hy hco hcg halpha =>
    have hdec := (decodedContext_planeOrder (c := prepared P.byteOrder draw input c)).2
      ⟨y, co, cg, alpha, hy, hco, hcg, halpha, rfl⟩
    rw [hdec]
    rfl
  · next hnot =>
    cases hdec : decodedContext P input planeOrder (prepared P.byteOrder draw input c) with
    | none => rfl
    | some d =>
      obtain ⟨y, co, cg, alpha, hy, hco, hcg, halpha, -⟩ := decodedContext_planeOrder.1 hdec
      exact (hnot y co cg alpha hy hco hcg halpha).elim

/-- The reference function after a header that is long enough: the checks of `prepare` in their order, then the planes. -/
theorem refMessage_eq (P : Params) (draw : Nat) {input : List Byte} (c : Context) (h : ¬ input.length < 20) :
    refMessage P c.width c.height input =
      (prepare P draw input.length (parsed P.byteOrder input c)).bind fun p =>
        planeAnswer (decodedContext P input planeOrder p.2) := by
  by_cases hl : 20 + payloadTotal (parsed P.byteOrder input c).planeByteCount ≤ input.length
  · have hfits := Nat.not_lt.2 hl
    by_cases hd : dimensionsOk P (parsed P.byteOrder input c)
    · cases hn : canAllocate P (neededSizes (parsed P.byteOrder input c).subsampling c.width.toNat c.height.toNat) with
      | false =>
        rw [prepare_denied hl hd hn]
        exact (if_neg h).trans ((if_neg hfits).trans ((if_neg (dimensionsOk_iff.1 hd)).trans (if_pos hn)))
      | true =>
        rw [prepare_ok hl hd hn]
        exact refMessage_prepared draw h hl hd hn
    · rw [prepare_unsupported hl hd]
      exact (if_neg h).trans ((if_neg hfits).trans (if_pos (not_not.1 (mt dimensionsOk_iff.2 hd))))
  · rw [prepare_malformed (Nat.lt_of_not_le hl)]
    exact (if_neg h).trans (if_pos (Nat.lt_of_not_le hl))

/-- The steps of the planes, when the payload fits into the message. -/
theorem planeSteps_planeOrder (c : Context) : planeSteps c planeOrder = payloadTotal c.planeByteCount + 13 := by
  simp only [planeSteps, planeOrder, List.map_cons, List.map_nil, List.sum_cons, List.sum_nil, planeGet, payloadTotal]
  omega

/-- A header that is long enough is read as the instruction its bytes make up. -/
theorem step_header {s : State} {input : List Byte} {w : Work} (hact : s.activity = .running input w .header)
    (hlen : ¬ input.length < 20) :
    step s = exec (.hdr (memRead32 s.params.byteOrder input 0) (memRead32 s.params.byteOrder input 4)
      (memRead32 s.params.byteOrder input 8) (memRead32 s.params.byteOrder input 12) (memRead8 input 16)
      (memRead8 input 17) (memRead8 input 18) (memRead8 input 19)) s :=
  stepRunsTheDecodedUnit.2 s input w .header _ hact (if_neg hlen)

/-- A context the header unit prepares meets the invariant at plane Y, whatever the context before the message was. -/
theorem inv_prepared {s : State} {input : List Byte} (w : Work) {base : PerPlane Nat} {c : Context}
    (hp : prepare s.params s.draws input.length (parsed s.params.byteOrder input s.ctx) = .ok (base, c))
    (ho : s.ctx.outputValid = false) (hb : s.ctx.buffersValid = false) :
    Inv (countDraw (withActivity (withContext s c) (.running input { w with base := base } (.plane .y)))) := by
  obtain ⟨hl, hd, -, rfl, rfl⟩ := prepare_inv hp
  have ⟨hw, hh, _⟩ := hd
  exact inv_running (allPlanes_iff.2 fun i => targetSizes_bounded hd i) ho hb rfl
    ⟨⟨hw, hh, rfl, allPlanes_iff.2 fun i => allocated_plane_length s.draws _ i, List.length_replicate⟩, rfl, hl⟩

/-- From its header on, a message ends at its reference. -/
theorem ends_at_header {s : State} {input : List Byte} {w : Work} (hact : s.activity = .running input w .header)
    (ho : s.ctx.outputValid = false) (hb : s.ctx.buffersValid = false) :
    Ends (input.length + 14) s (refMessage s.params s.ctx.width s.ctx.height input) := by
  by_cases hlen : input.length < 20
  · rw [refMessage_short s.params _ _ hlen]
    exact (fails_now (step_shortHeader hact hlen) (Nat.le_add_left 1 _)).ends
  have hs := step_header hact hlen
  rw [refMessage_eq s.params s.draws s.ctx hlen]
  cases hp : prepare s.params s.draws input.length (parsed s.params.byteOrder input s.ctx) with
  | error k =>
    rw [execHdr_error hact (Nat.not_lt.1 hlen) _ _ hp] at hs
    exact (fails_now hs (Nat.le_add_left 1 _)).ends
  | ok p =>
    obtain ⟨base, c⟩ := p
    rw [execHdr_prepared hact (Nat.not_lt.1 hlen) _ _ hp] at hs
    have hinv := inv_prepared w hp ho hb
    obtain ⟨hl, -, -, -, rfl⟩ := prepare_inv hp
    refine ((ends_at_planes planeOrder List.suffix_rfl hinv rfl).after (runsTo_one hs) ⟨rfl, rfl, rfl, rfl⟩).mono ?_
    rw [planeSteps_planeOrder]
    show 1 + (payloadTotal (parsed s.params.byteOrder input s.ctx).planeByteCount + 13) ≤ _
    omega

/-! ## The whole message (R102) -/

/-- From an idle core on, PROCESS_MESSAGE ends at its reference: its answer, with the command taken off the host's list. -/
theorem message_ends {s : State} {w h : U32} {input : List Byte} {rest : List HostCommand}
    (hact : s.activity = .idle) (hpending : s.pending = ⟨2, w, h, input⟩ :: rest) :
    ∃ n t, n ≤ input.length + 15 ∧ RunsTo n s t ∧ t.activity = .idle ∧ t.pending = rest ∧ t.params = s.params ∧
      Leaves s.ctx.width s.ctx.height t.ctx (refMessage s.params s.ctx.width s.ctx.height input) := by
  have hs : step s = exec (.processMessage input) { s with pending := rest } := step_command (.inl hact) hpending
  rw [execProcessMessage_idle (s := { s with pending := rest }) input hact] at hs
  obtain ⟨n, t, hn, hrun, hrest⟩ := ends_at_header (input := input) (s := countDraw (withActivity (withContext
    { s with pending := rest } (clearValid s.ctx)) (.running input (unsetWork s.draws) .header))) rfl rfl rfl
  exact ⟨n + 1, t, Nat.succ_le_succ hn, run_cons hs hrun, hrest⟩

/-- Settles O44: the end of the message, for each kind of answer. -/
theorem messageRunsToItsReference : Obligations.MessageRunsToItsReference := by
  intro s w h input rest hact hpending
  obtain ⟨n, t, hn, hrun, hidle, hrest, hparams, hleaves⟩ := message_ends hact hpending
  refine ⟨n, t, hn, hrun, hidle, hrest, hparams, fun c hc => ?_, fun k hk => ?_⟩
  · rwa [hc] at hleaves
  · rwa [hk] at hleaves

/-- Two idle cores with the same answer of a message offer the host the same. -/
theorem same_of_leaves {width height : U32} {t₁ t₂ : State} {r : Except ErrorKind Context}
    (hidle₁ : t₁.activity = .idle) (hidle₂ : t₂.activity = .idle) (h₁ : Leaves width height t₁.ctx r)
    (h₂ : Leaves width height t₂.ctx r) :
    hostBitmap t₁ = hostBitmap t₂ ∧ t₁.ctx.status = t₂.ctx.status ∧ (t₁.ctx.status = .ok → t₁.ctx = t₂.ctx) := by
  have hview : ∀ {t : State}, t.activity = .idle → hostView t = some t.ctx := fun h => hostView_eq_some.2 ⟨h, rfl⟩
  cases r with
  | ok c =>
    have heq : t₁.ctx = t₂.ctx := Eq.trans h₁ (Eq.symm h₂)
    exact ⟨by rw [hostBitmap, hostBitmap, hview hidle₁, hview hidle₂, heq], by rw [heq], fun _ => heq⟩
  | error k =>
    obtain ⟨hst₁, ho₁, -⟩ := h₁
    obtain ⟨hst₂, ho₂, -⟩ := h₂
    refine ⟨?_, hst₁.trans hst₂.symm, fun hok => ?_⟩
    · simp only [hostBitmap, hview hidle₁, hview hidle₂, ho₁, ho₂]
      rfl
    · rw [hst₁] at hok
      cases k <;> cases hok

/-- Settles O45: both runs end at the one reference. -/
theorem sameMessageSameBitmap : Obligations.SameMessageSameBitmap := by
  intro s₁ s₂ w₁ h₁ w₂ h₂ input rest₁ rest₂ hact₁ hact₂ hpending₁ hpending₂ hwidth hheight hparams
  obtain ⟨n₁, t₁, -, hrun₁, hidle₁, hrest₁, -, hleaves₁⟩ := message_ends hact₁ hpending₁
  obtain ⟨n₂, t₂, -, hrun₂, hidle₂, hrest₂, -, hleaves₂⟩ := message_ends hact₂ hpending₂
  rw [← hwidth, ← hheight, ← hparams] at hleaves₂
  exact ⟨n₁, n₂, t₁, t₂, hrun₁, hrun₂, hidle₁, hidle₂, hrest₁, hrest₂, same_of_leaves hidle₁ hidle₂ hleaves₁ hleaves₂⟩

end Sys2Proof.Machine
end

section
/-! PROOFS. The planes of spec 41: the three plane modes (O13, O14, O15), the five tokens, each with its effect and its errors
(O16 to O20), the end of the loop below four bytes (O21), and what no token touches (O22). -/

namespace Sys2Proof.Machine

/-! ## The plane modes (R121 to R123) -/

/-- Bytes for the whole of plane `i` replace it, and the core moves past it. -/
theorem answerOf_finishPlane {s : State} {input : List Byte} {w : Work} {i : PlaneId} (bytes : List Byte)
    (h : bytes.length = (planeGet s.ctx.plane i).length) :
    answerOf (finishPlane s input w i bytes) =
      .next (withActivity (withContext s (setPlane s.ctx i bytes)) (.running input w (stageAfterPlane i))) := by
  rw [finishPlane_whole s input w i bytes h, answerOf_ok]

/-- Settles O13: the guard of FILL is met by the Alpha plane with byte count 0. -/
theorem fillMakesAlphaOpaque : Obligations.FillMakesAlphaOpaque := by
  intro s input w hact hcount hlen
  have hfill : selectsFill s.ctx .alpha = true := (selectsFill_iff _ _).2 ⟨rfl, congrArg BitVec.toNat hcount⟩
  rw [execPlaneFill_selected hact hfill]
  exact answerOf_finishPlane _ (List.length_replicate.trans hlen.symm)

/-- Settles O14: the copy fills the whole plane, and its byte `k` is byte `base + k` of the message. -/
theorem rawCopiesThePayload : Obligations.RawCopiesThePayload := by
  intro i s input w hact halpha hcount hin hlen
  have hraw : selectsRaw s.ctx i = true := (selectsRaw_iff _ _).2 ⟨selectsFill_false halpha, hcount⟩
  have hcopied : ((input.drop (planeGet w.base i)).take (planeGet s.ctx.planeTargetSize i)).length =
      planeGet s.ctx.planeTargetSize i := by
    rw [List.length_take, List.length_drop]
    omega
  refine ⟨_, (execPlaneRaw_selected hact hraw hin).trans (answerOf_finishPlane _ (hcopied.trans hlen.symm)), ?_⟩
  simp only [withActivity_ctx, withContext_ctx, setPlane_plane, planeGet_planeSet_self]
  refine ⟨rfl, hcopied, fun k hk => ?_⟩
  rw [List.getElem?_take_of_lt hk, List.getElem?_drop]

/-- Settles O15: PLANE.RLE only sets working registers. -/
theorem rleEntersTheTokenLoop : Obligations.RleEntersTheTokenLoop := fun _ _ _ _ hact halpha hcount =>
  execPlaneRle_selected hact ((selectsRle_iff _ _).2 ⟨selectsFill_false halpha, hcount⟩)

/-! ## A token at the cursor (R123)

Where its guard holds, a token runs or is cut off by the payload's end. A run of bytes at the output index replaces the middle
part of the plane. -/

section
variable {s : State} {input : List Byte} {w : Work} {i : PlaneId}

section
variable (hact : s.activity = .running input w (.tokens i)) {guard : Nat → Bool} (hg : guard w.remaining = true)
  {need : Nat} {run : List Byte → Work → PlaneId → Answer}
include hact hg

theorem inTokenLoop_runs (hp : w.p + need ≤ w.stop) : inTokenLoop s guard need run = run input w i := by
  rw [inTokenLoop_at hact, if_pos hg, if_pos hp]

theorem inTokenLoop_cutOff (hp : w.stop < w.p + need) :
    inTokenLoop s guard need run = .next (raiseError .corruptRunLength s) := by
  rw [inTokenLoop_at hact, if_pos hg, if_neg (Nat.not_le.2 hp)]

end

section
variable {n p : Nat} {v : Byte}

theorem emitRun_middle {before old after : List Byte} (hplane : planeGet s.ctx.plane i = before ++ old ++ after)
    (ho : before.length = w.o) (hold : old.length = n) :
    emitRun s input { w with p := p, value := v } i n = .next (withActivity
      (withContext s (setPlane s.ctx i (before ++ List.replicate n v ++ after)))
      (.running input { w with p := p, value := v, o := w.o + n, remaining := w.remaining - n } (.tokens i))) := by
  refine emitRun_next.2 ⟨_, ?_, rfl⟩
  rw [hplane, ← ho]
  exact writeAt_middle _ before old after _ (hold.trans List.length_replicate.symm)

/-- A run of one byte replaces the byte at the output index. -/
theorem emitRun_one {before after : List Byte} {old : Byte} (hplane : planeGet s.ctx.plane i = before ++ old :: after)
    (ho : before.length = w.o) :
    emitRun s input { w with p := p, value := v } i 1 = .next (withActivity
      (withContext s (setPlane s.ctx i (before ++ v :: after)))
      (.running input { w with p := p, value := v, o := w.o + 1, remaining := w.remaining - 1 } (.tokens i))) := by
  rw [List.append_cons] at hplane ⊢
  exact emitRun_middle hplane ho rfl

theorem emitChecked_tooLong (h : w.remaining < n) :
    emitChecked s input { w with p := p, value := v } i n = .next (raiseError .corruptRunLength s) := if_pos h

theorem emitChecked_fits (h : n ≤ w.remaining) :
    emitChecked s input { w with p := p, value := v } i n = emitRun s input { w with p := p, value := v } i n :=
  if_neg (Nat.not_lt.2 h)

end

end

/-! ## Literals and runs (R124 to R127) -/

/-- Settles O16: a literal is a run of one byte. -/
theorem literalsEmitOneByte : Obligations.LiteralsEmitOneByte := by
  intro v old s input w i before after hact hplane ho
  have hg5 : w.remaining = 5 → (w.remaining == 5) = true := beq_iff_eq.2
  refine ⟨fun hrem hp => ?_, fun hrem hp => ?_, fun hrem hp => ?_, fun hrem hp => ?_⟩
  · rw [exec, execLit5, inTokenLoop_runs hact (hg5 hrem) hp, emitRun_one hplane ho]
    simp only [hrem]
    rfl
  · rw [exec, execLit, inTokenLoop_runs hact (decide_eq_true hrem) hp]
    exact emitRun_one hplane ho
  · rw [exec, execLit5, inTokenLoop_cutOff hact (hg5 hrem) hp]
  · rw [exec, execLit, inTokenLoop_cutOff hact (decide_eq_true hrem) hp]

/-- Settles O17: a run of `L + 2` bytes, compared with `remaining` before it is stored. -/
theorem shortRunEmitsLengthPlusTwo : Obligations.ShortRunEmitsLengthPlusTwo := by
  intro v len s input w i hact hlen hrem
  have hg : (decide (6 ≤ w.remaining) && len != 0xFF#8) = true := by simp [hrem, hlen]
  refine ⟨fun before old after hp hplane ho hold hfits => ?_, fun hp hlong => ?_, fun hp => ?_⟩
  · rw [exec, execRuns, inTokenLoop_runs hact hg hp, emitChecked_fits hfits]
    exact emitRun_middle hplane ho hold
  · rw [exec, execRuns, inTokenLoop_runs hact hg hp]
    exact emitChecked_tooLong hlong
  · rw [exec, execRuns, inTokenLoop_cutOff hact hg hp]

/-- Settles O18: as O17, with the length read from four bytes. -/
theorem longRunEmitsItsLength : Obligations.LongRunEmitsItsLength := by
  intro v n s input w i hact hrem
  have hg := decide_eq_true hrem
  refine ⟨fun before old after hp hplane ho hold hfits => ?_, fun hp hlong => ?_, fun hp => ?_⟩
  · rw [exec, execRunl, inTokenLoop_runs hact hg hp, emitChecked_fits hfits]
    exact emitRun_middle hplane ho hold
  · rw [exec, execRunl, inTokenLoop_runs hact hg hp]
    exact emitChecked_tooLong hlong
  · rw [exec, execRunl, inTokenLoop_cutOff hact hg hp]

/-! ## The trailer (R128) -/

theorem trailerFits_iff {strict : Bool} {w : Work} :
    trailerFits strict w = true ↔ w.remaining = 4 ∧ w.p + 4 ≤ w.stop ∧ (strict = true → w.p + 4 = w.stop) := by
  cases strict <;> simp [trailerFits, and_assoc]

section
variable {s : State} {input : List Byte} {w : Work} {i : PlaneId} (hact : s.activity = .running input w (.tokens i))
include hact

theorem execTrail_fits {before old after : List Byte} (hplane : planeGet s.ctx.plane i = before ++ old ++ after)
    (ho : before.length = w.o) (hold : old.length = 4) (hfits : trailerFits s.params.strictTrailer w = true)
    (t u x z : Byte) :
    exec (.trail t u x z) s = .next (withActivity (withContext s (setPlane s.ctx i (before ++ [t, u, x, z] ++ after)))
      (.running input { w with o := w.o + 4, remaining := 0, p := w.p + 4 } (stageAfterPlane i))) := by
  have hrem : w.remaining ≤ 4 := (trailerFits_iff.1 hfits).1.le
  have hwrite : writeAt (.plane i) (planeGet s.ctx.plane i) w.o [t, u, x, z] = .ok (before ++ [t, u, x, z] ++ after) := by
    rw [hplane, ← ho]
    exact writeAt_middle _ before old after _ hold
  rw [execTrail_at hact hrem, if_pos hfits, hwrite, ok_bind, pure_eq_ok, answerOf_ok]

theorem execTrail_corrupt (hrem : w.remaining ≤ 4) (hfits : trailerFits s.params.strictTrailer w ≠ true) (t u x z : Byte) :
    exec (.trail t u x z) s = .next (raiseError .corruptRunLength s) := by
  rw [execTrail_at hact hrem, if_neg hfits]

end

/-- Settles O19: the bytes are stored where the three checks of `trailerFits` hold; each error case fails one of them. -/
theorem trailerEndsThePlane : Obligations.TrailerEndsThePlane := by
  intro t u x z s input w i hact
  refine ⟨fun before old after hplane ho hold hrem hp hstrict => ?_, fun hbad => ?_⟩
  · exact execTrail_fits hact hplane ho hold (trailerFits_iff.2 ⟨hrem, hp, hstrict⟩) t u x z
  · refine execTrail_corrupt hact (by omega) (fun hfits => ?_) t u x z
    obtain ⟨hrem, hp, hstrict⟩ := trailerFits_iff.1 hfits
    obtain hlt | ⟨-, hlt⟩ | ⟨-, hs, hne⟩ := hbad
    · omega
    · omega
    · exact hne (hstrict hs)

/-- Settles O20: without STRICT_TRAILER the third check of the trailer asks nothing. -/
theorem looseTrailerIgnoresLaterBytes : Obligations.LooseTrailerIgnoresLaterBytes := by
  intro t u x z s input w i before old after hact hloose hplane ho hold hrem hp
  have hfits : trailerFits s.params.strictTrailer w = true :=
    trailerFits_iff.2 ⟨hrem, hp, fun hstrict => absurd hstrict (by rw [hloose]; exact Bool.false_ne_true)⟩
  exact ⟨_, execTrail_fits hact hplane ho hold hfits t u x z, planeGet_planeSet_self _ _ _⟩

/-- With at most 4 bytes remaining nothing but the trailer is decoded (R74). -/
theorem decodeToken_ok_trail {bo : ByteOrder} {remaining : Nat} {bs : List Byte} {tok : Instr} (hrem : remaining ≤ 4)
    (h : decodeToken bo remaining bs = .ok tok) : ∃ t u x z, tok = .trail t u x z := by
  unfold decodeToken at h
  rw [if_pos hrem] at h
  split at h
  · cases h; exact ⟨_, _, _, _, rfl⟩
  · cases h

/-- Settles O21: the bytes at the cursor are a trailer, whose check on `remaining` fails, or are cut off. -/
theorem loopExitBelowFourIsCorrupt : Obligations.LoopExitBelowFourIsCorrupt := by
  intro s input w i hact hlt
  cases hd : decodeToken s.params.byteOrder w.remaining ((input.drop w.p).take (w.stop - w.p)) with
  | error r => exact (truncatedUnitRaisesItsError s input w).2 i r hact hd
  | ok tok =>
    obtain ⟨t, u, x, z, rfl⟩ := decodeToken_ok_trail (by omega) hd
    rw [stepRunsTheDecodedUnit.2 s input w (.tokens i) (.trail t u x z) hact hd]
    exact (trailerEndsThePlane t u x z s input w i hact).2 (.inl hlt)

/-! ## The frame of the tokens (R124 to R129)

`StoresAtCursor` is what every token does that raises no error; the frame follows from it alone. -/

/-- From `s` to `t`, `n` bytes are written to plane `i` at the output index and the cursor has moved by them. -/
def StoresAtCursor (s t : State) (input : List Byte) (w : Work) (i : PlaneId) (n : Nat) : Prop :=
  ∃ bytes a w' stage, bytes.length = n ∧ writeAt (.plane i) (planeGet s.ctx.plane i) w.o bytes = .ok a ∧
    w' = { w with p := w'.p, value := w'.value, o := w.o + n, remaining := w.remaining - n } ∧
    t = withActivity (withContext s (setPlane s.ctx i a)) (.running input w' stage)

section
variable {s t : State} {input : List Byte} {w : Work} {i : PlaneId} {n : Nat}

/-- A token's meaning with a next state, where the core is known to be in the token loop. -/
theorem inTokenLoop_next_at {guard : Nat → Bool} {need : Nat} {run : List Byte → Work → PlaneId → Answer}
    (hact : s.activity = .running input w (.tokens i)) (h : inTokenLoop s guard need run = .next t) :
    guard w.remaining = true ∧ (run input w i = .next t ∨ t = raiseError .corruptRunLength s) := by
  obtain ⟨_, _, _, hact', hg, hend⟩ := inTokenLoop_next h
  cases hact.symm.trans hact'
  exact ⟨hg, hend.imp_left And.right⟩

theorem emitRun_storesAtCursor {p : Nat} {v : Byte} (h : emitRun s input { w with p := p, value := v } i n = .next t) :
    StoresAtCursor s t input w i n := by
  obtain ⟨a, ha, rfl⟩ := emitRun_next.1 h
  exact ⟨_, a, _, _, List.length_replicate, ha, rfl, rfl⟩

theorem emitChecked_storesAtCursor {p : Nat} {v : Byte}
    (h : emitChecked s input { w with p := p, value := v } i n = .next t) :
    StoresAtCursor s t input w i n ∨ t = raiseError .corruptRunLength s := by
  obtain hlong | hfits := Nat.lt_or_ge w.remaining n
  · rw [emitChecked_tooLong hlong] at h
    cases h
    exact .inr rfl
  · rw [emitChecked_fits hfits] at h
    exact .inl (emitRun_storesAtCursor h)

theorem execTrail_next {b c d x : Byte} (hact : s.activity = .running input w (.tokens i)) (hrem : w.remaining ≤ 4)
    (h : exec (.trail b c d x) s = .next t) :
    StoresAtCursor s t input w i 4 ∨ t = raiseError .corruptRunLength s := by
  rw [execTrail_at hact hrem] at h
  split at h
  · next hfits =>
    obtain ⟨a, ha, hnext⟩ := bind_ok.1 (answerOf_next.1 h)
    cases hnext
    have hmoved : 0 = w.remaining - 4 := by rw [(trailerFits_iff.1 hfits).1]
    exact .inl ⟨_, a, _, _, rfl, ha, by rw [← hmoved], rfl⟩
  · cases h
    exact .inr rfl

/-- A token in the token loop stores its bytes at the cursor or raises CorruptRunLength. -/
theorem exec_token_next {tok : Instr} (hn : tokenStores tok = some n) (hact : s.activity = .running input w (.tokens i))
    (h : exec tok s = .next t) : StoresAtCursor s t input w i n ∨ t = raiseError .corruptRunLength s := by
  cases tok with
  | lit5 v =>
    cases hn
    rw [exec, execLit5] at h
    exact (inTokenLoop_next_at hact h).2.imp_left emitRun_storesAtCursor
  | lit v =>
    cases hn
    rw [exec, execLit] at h
    exact (inTokenLoop_next_at hact h).2.imp_left emitRun_storesAtCursor
  | runs v len =>
    cases hn
    rw [exec, execRuns] at h
    obtain ⟨-, hrun | herr⟩ := inTokenLoop_next_at hact h
    · exact emitChecked_storesAtCursor hrun
    · exact .inr herr
  | runl v len =>
    cases hn
    rw [exec, execRunl] at h
    obtain ⟨-, hrun | herr⟩ := inTokenLoop_next_at hact h
    · exact emitChecked_storesAtCursor hrun
    · exact .inr herr
  | trail b c d x =>
    cases hn
    rw [exec, execTrail] at h
    obtain ⟨hg, -⟩ := inTokenLoop_next_at hact h
    exact execTrail_next hact (of_decide_eq_true hg) h
  | _ => cases hn

end

/-- Settles O22: unless it raises an error a token stores at the cursor, and that writes nothing else. -/
theorem tokensStoreOnlyTheirBytes : Obligations.TokensStoreOnlyTheirBytes := by
  intro tok n s t input w i hn hact h hrun
  obtain ⟨bytes, a, w', stage, rfl, ha, hw, rfl⟩ | rfl := exec_token_next hn hact h
  · refine ⟨rfl, fun j hj => planeGet_planeSet_other _ a hj, ?_, fun k hk => ?_, ⟨w', stage, rfl, hw⟩, rfl, rfl, rfl⟩
    · rw [withActivity_ctx, withContext_ctx, setPlane_plane, planeGet_planeSet_self, writeAt_length ha]
    · rw [withActivity_ctx, withContext_ctx, setPlane_plane, planeGet_planeSet_self, writeAt_get ha, if_neg (by omega)]
  · exact absurd (raiseError_activity _ s) hrun

end Sys2Proof.Machine
end

section
/-! PROOFS. The color-loss expander of spec 42: what CLX leaves (O23) and the bands of its shift (O24). -/

namespace Sys2Proof.Machine

/-! ## The expansion of a plane (R140) -/

/-- CLX at its stage leaves the expanded context and goes on in the order of R85. -/
theorem execClx_at {s : State} {input : List Byte} {w : Work} {c : Chroma} (hact : s.activity = .running input w (.clx c)) :
    exec (.clx c) s = .next (withActivity (withContext s (expanded s.ctx c))
      (.running input w (stageAfterClx s.ctx.subsampling c))) := by
  rw [exec, execClx, hact]
  exact if_pos rfl

@[simp] theorem chromaGet_expanded (ctx : Context) (c : Chroma) :
    chromaGet (expanded ctx c) c = expandPlane ctx.colorLossLevel (planeGet ctx.plane (chromaPlane c)) :=
  chromaGet_setChroma_self _ _ _

/-- Sample `k` of the expansion comes from byte `k` alone. -/
theorem expandPlane_get {level b : Byte} {bytes : List Byte} {k : Nat} (hb : bytes[k]? = some b) :
    (expandPlane level bytes)[k]? = some (expandByte level b) := by
  rw [expandPlane, List.getElem?_map, hb, Option.map_some]

/-- Settles O23: the array CLX writes is the expansion of its plane, each sample the value of `expandByte_toInt`. -/
theorem colorLossSignExtendsNineBits : Obligations.ColorLossSignExtendsNineBits := by
  intro c s input w hact
  refine ⟨_, execClx_at hact, ?_, ?_, ?_, fun k b hb => ?_, rfl, rfl, rfl⟩
  · cases c <;> rfl
  · cases c <;> rfl
  · rw [withActivity_ctx, withContext_ctx, chromaGet_expanded, expandPlane_length]
  · rw [withActivity_ctx, withContext_ctx, chromaGet_expanded]
    exact ⟨_, expandPlane_get hb, expandByte_toInt _ b⟩

/-! ## The bands of the shift (R141) -/

/-- At level 0 a byte is its own low 9 bits, and bit 8 is clear. -/
theorem expandByte_level_zero (c : Byte) : (expandByte 0 c).toInt = c.toNat := by
  have hshift : c.toNat * 2 ^ (0 : Byte).toNat % 512 = c.toNat := by
    rw [show (0 : Byte).toNat = 0 from rfl]
    omega
  rw [expandByte_toInt, hshift, if_pos c.isLt]

/-- At level 8 only bit 0 of the byte is left of the shifted value, as its bit 8. -/
theorem expandByte_level_eight (c : Byte) : (expandByte 8 c).toInt = if c.toNat % 2 = 1 then -256 else 0 := by
  have hshift : c.toNat * 2 ^ (8 : Byte).toNat % 512 = 256 * (c.toNat % 2) := by
    rw [show (8 : Byte).toNat = 8 from rfl]
    omega
  rw [expandByte_toInt, hshift]
  obtain heven | hodd := Nat.mod_two_eq_zero_or_one c.toNat
  · rw [heven]; rfl
  · rw [hodd]; rfl

/-- From level 9 on the shifted value is a multiple of 512. -/
theorem expandByte_level_ge_nine {level : Byte} (c : Byte) (h : 9 ≤ level.toNat) : (expandByte level c).toInt = 0 := by
  have hshift : c.toNat * 2 ^ level.toNat % 512 = 0 :=
    Nat.mod_eq_zero_of_dvd (Dvd.dvd.mul_left (Nat.pow_dvd_pow 2 h) _)
  rw [expandByte_toInt, hshift]
  rfl

/-- Settles O24: one lemma for each band; the range is that of every sample of CLX. -/
theorem colorLossBands : Obligations.ColorLossBands := by
  intro level c
  refine ⟨?_, ?_, expandByte_level_ge_nine c, expandByte_inRange level c⟩
  · rintro rfl
    exact expandByte_level_zero c
  · rintro rfl
    exact expandByte_level_eight c

end Sys2Proof.Machine
end

section
/-! PROOFS. The chroma upsampler of spec 43: the closed form of UPS (O25) and its refusal of bad operands (O26). -/

namespace Sys2Proof.Machine

/-- R150's condition on the operands: at least one sample in a row, and a whole number of rows. -/
theorem upsGeometryOk_iff {count w2 : Nat} : upsGeometryOk count w2 = true ↔ w2 ≠ 0 ∧ w2 ∣ count := by
  rw [upsGeometryOk, Bool.and_eq_true, decide_eq_true_iff, decide_eq_true_iff, Nat.dvd_iff_mod_eq_zero]

/-- UPS at its stage, on operands that meet R150's condition, leaves the upsampled array and goes on in the order of R85. -/
theorem execUps_at {s : State} {input : List Byte} {w w' : Work} {c : Chroma} {w2 : Nat} {b : List Sample}
    (hact : s.activity = .running input w (.ups c)) (hgeo : upsGeometryOk (chromaGet s.ctx c).length w2 = true)
    (hups : upsample (chromaSpace c) (chromaGet s.ctx c) w2 w
      (freeSamples s.draws 0 (4 * (chromaGet s.ctx c).length)) = .ok (w', b)) :
    exec (.ups c w2) s = .next (countDraw (withActivity (withContext s (setChroma s.ctx c b))
      (.running input w' (stageAfterUps c)))) := by
  simp only [exec, execUps, hact, if_true, hgeo, hups, ok_bind, pure_eq_ok, answerOf_ok]

/-- UPS at its stage refuses operands that break R150's condition. -/
theorem execUps_refused {s : State} {input : List Byte} {w : Work} {c : Chroma} {w2 : Nat}
    (hact : s.activity = .running input w (.ups c)) (hgeo : ¬ upsGeometryOk (chromaGet s.ctx c).length w2 = true) :
    exec (.ups c w2) s = .refused .upsGeometry := by
  simp only [exec, execUps, hact, if_true, if_neg hgeo]

/-- Settles O25: the loops of UPS fill the new array as `upsample_spec` says, whatever it held before. -/
theorem upsamplingReplicatesTwoByTwo : Obligations.UpsamplingReplicatesTwoByTwo := by
  intro c w2 rows s input w hact hw2 hlen
  have hgeo : upsGeometryOk (chromaGet s.ctx c).length w2 = true :=
    upsGeometryOk_iff.2 ⟨Nat.one_le_iff_ne_zero.1 hw2, Dvd.intro_left rows hlen.symm⟩
  obtain ⟨w', b, hups, hwork, hlength, hget⟩ :=
    upsample_spec (chromaSpace c) w hw2 hlen (freeSamples_length s.draws 0 _)
  refine ⟨_, w', execUps_at hact hgeo hups, ?_, hwork, ?_, ?_, fun x y hx hy => ?_, rfl, rfl⟩
  · cases c <;> rfl
  · cases c <;> rfl
  · rw [countDraw_ctx, withActivity_ctx, withContext_ctx, chromaGet_setChroma_self, hlength]
  · rw [countDraw_ctx, withActivity_ctx, withContext_ctx, chromaGet_setChroma_self]
    exact hget y x hx hy

/-- Settles O26: either fault of the operands breaks R150's condition. -/
theorem upsamplingRefusesBadGeometry : Obligations.UpsamplingRefusesBadGeometry := by
  intro c w2 s input w hact hbad
  refine execUps_refused hact fun hgeo => ?_
  obtain ⟨hpos, hdvd⟩ := upsGeometryOk_iff.1 hgeo
  exact hbad.elim hpos (not_not_intro hdvd)

end Sys2Proof.Machine
end

section
/-! PROOFS. The color-space converter of spec 44: the pixel arithmetic (O28) and the bitmap CSC writes (O27). -/

namespace Sys2Proof.Machine

/-! ## The pixel arithmetic (R162, R163) -/

/-- The truncated half of a sample in the range of R31. -/
theorem half_inRange {x : Sample} (h : sampleInRange x) : -128 ≤ x.toInt.tdiv 2 ∧ x.toInt.tdiv 2 ≤ 127 := by
  obtain ⟨hlo, hhi⟩ := h
  exact ⟨Int.tdiv_le_tdiv (by decide) hlo, Int.tdiv_le_tdiv (by decide) hhi⟩

/-- `low8` is the remainder of R9, for a negative number too. -/
theorem low8_toNat (v : Int) : ((low8 v).toNat : Int) = v % 256 := by
  rw [low8, BitVec.toNat_ofInt]
  exact Int.toNat_of_nonneg (Int.emod_nonneg v (by decide))

/-- Settles O28: each sum is a byte and one or two halves, whose ranges add up. -/
theorem pixelSumsWrapModulo256 : Obligations.PixelSumsWrapModulo256 := by
  refine ⟨fun y co cg hco hcg => ?_, low8_toNat, fun y a co cg => rfl⟩
  have hy : y.toNat < 256 := y.isLt
  obtain ⟨hcoLo, hcoHi⟩ := half_inRange hco
  obtain ⟨hcgLo, hcgHi⟩ := half_inRange hcg
  unfold redSum greenSum blueSum
  omega

/-! ## The bitmap (R160, R161, R164) -/

/-- Pixel `(x, y)` is one of the image. -/
theorem pixelIndex_lt {w h x y : Nat} (hx : x < w) (hy : y < h) : y * w + x < w * h := by
  have hrow := row_col_lt (m := w) hy
  rw [Nat.mul_comm w h]
  omega

/-- R161: pixel `(x, y)` is read at `y * (W + pad) + x`. -/
theorem refIndex_pixel (sub : Bool) {w x : Nat} (y : Nat) (hx : x < w) :
    refIndex sub w (y * w + x) = y * (if sub then pad8 w else w) + x := by
  have hdiv : (y * w + x) / w = y := by
    rw [Nat.mul_comm, Nat.mul_add_div (Nat.zero_lt_of_lt hx), Nat.div_eq_of_lt hx, Nat.add_zero]
  rw [refIndex, hdiv, Nat.mul_add_mod', Nat.mod_eq_of_lt hx, width_add_rowPad]

/-- CSC at its stage, on complete buffers, fills OUT and commits. -/
theorem execCsc_at {s : State} {input : List Byte} {w : Work} (hact : s.activity = .running input w .csc)
    (hc : buffersComplete s.ctx) :
    ∃ out, exec .csc s = .next (commit (withContext s (setOut s.ctx out))) ∧
      outFilled s.ctx (s.ctx.width.toNat * s.ctx.height.toNat) out := by
  have ⟨⟨_, _, _, _, hsize⟩, _, _⟩ := hc
  obtain ⟨out, hout, hfilled⟩ := convertImage_spec (cscReady_of_complete hc) w hsize
  exact ⟨out, by simp only [exec, execCsc, hact, hout, ok_bind, pure_eq_ok, answerOf_ok], hfilled⟩

/-- Settles O27: the arrays reach as far as pixel `(x, y)` is read, and OUT holds the four bytes of `pixelAt`. -/
theorem conversionWritesTheBitmap : Obligations.ConversionWritesTheBitmap := by
  intro s input w hact hc
  obtain ⟨out, hexec, hlength, hpixels⟩ := execCsc_at hact hc
  refine ⟨_, hexec, rfl, rfl, hlength, fun x y hx hy => ?_, rfl, rfl, rfl⟩
  have hready := cscReady_of_complete hc
  have hpixel := pixelIndex_lt hx hy
  have hsource := refIndex_lt s.ctx.subsampling hpixel
  have hbytes := hpixels _ hpixel
  unfold pixelAt at hbytes
  rw [refIndex_pixel _ _ hx] at hsource hbytes
  exact ⟨_, _, _, _,
    readAt_ok.1 (readAt_getD (.plane .y) (Nat.lt_of_lt_of_le hsource hready.luma) 0),
    readAt_ok.1 (readAt_getD .co (Nat.lt_of_lt_of_le hsource hready.co) 0),
    readAt_ok.1 (readAt_getD .cg (Nat.lt_of_lt_of_le hsource hready.cg) 0),
    readAt_ok.1 (readAt_getD (.plane .alpha) (Nat.lt_of_lt_of_le hpixel hready.alpha) 0),
    hbytes 0 (by decide), hbytes 1 (by decide), hbytes 2 (by decide), hbytes 3 (by decide)⟩

end Sys2Proof.Machine
end

section
/-! PROOFS. The exceptions of spec 60: the order of the header's checks (O10), what taking an error writes (O11), and the
idle core (O34). -/

namespace Sys2Proof.Machine

/-! ## The order of the header's checks (R173) -/

/-- The check of R105 fails at a dimension of 0 or at a size above MAX_SIZE. -/
theorem not_dimensionsOk_iff {P : Params} {c : Context} :
    ¬ dimensionsOk P c ↔ c.width = 0 ∨ c.height = 0 ∨
      ∃ n ∈ checkedSizes c.subsampling c.width.toNat c.height.toNat, n > P.maxSize := by
  simp only [dimensionsOk, not_and_or, ne_eq, not_not, not_forall, exists_prop, Nat.not_le, gt_iff_lt]

/-- A message shorter than its header and payload is malformed, whichever of the two it cuts off (R103, R104). -/
theorem execHdr_malformed {s : State} {input : List Byte} {w : Work} (hact : s.activity = .running input w .header)
    {a b c d : U32} (l sub x0 x1 : Byte) (hl : input.length < 20 + payloadTotal ⟨a, b, c, d⟩) :
    exec (.hdr a b c d l sub x0 x1) s = .next (raiseError .malformedHeader s) := by
  by_cases hlen : input.length < 20
  · simp only [exec, execHdr, hact, if_pos hlen]
  · exact execHdr_error hact (Nat.not_lt.1 hlen) x0 x1 (prepare_malformed hl)

/-- Settles O10: the payload, then the dimensions, then the buffers, each with the checks before it passed. -/
theorem headerErrorsComeInOrder : Obligations.HeaderErrorsComeInOrder := by
  intro a b c d l sub x0 x1 s input w hact
  refine ⟨execHdr_malformed hact l sub x0 x1, fun hl hdims => ?_, fun hl hw hh hsizes hdenied => ?_⟩
  · have hd : ¬ dimensionsOk s.params (parseHeader s.ctx a b c d l sub) := not_dimensionsOk_iff.2 hdims
    exact execHdr_error hact (Nat.le_of_add_right_le hl) x0 x1 (prepare_unsupported hl hd)
  · have hd : dimensionsOk s.params (parseHeader s.ctx a b c d l sub) := ⟨hw, hh, hsizes⟩
    exact execHdr_error hact (Nat.le_of_add_right_le hl) x0 x1 (prepare_denied hl hd hdenied)

/-! ## Taking an error (R170, R172) -/

/-- Settles O11: STATUS and the valid bits are written after the free values are drawn, and WIDTH and HEIGHT get none. -/
theorem errorEndsTheCommand : Obligations.ErrorEndsTheCommand := by
  refine ⟨fun k s => ⟨?_, ?_, ?_, ?_, ?_, raiseError_activity k s, raiseError_pending k s, raiseError_params k s⟩,
    rfl, rfl, rfl, rfl⟩
  · rw [raiseError_ctx, clearValid_status, setStatus_status]
  · rw [raiseError_ctx, clearValid_outputValid]
  · rw [raiseError_ctx, clearValid_buffersValid]
  · rw [raiseError_ctx, clearValid_width, setStatus_width, unspecify_width]
  · rw [raiseError_ctx, clearValid_height, setStatus_height, unspecify_height]

/-! ## The idle core (R186) -/

/-- Settles O34: there is no unit to fetch, so the step is the idle step. -/
theorem idleCoreHoldsItsContext : Obligations.IdleCoreHoldsItsContext := by
  intro s hact hpending
  have hfetch : fetch s = none := by rw [fetch_command (.inl hact), hpending]; rfl
  simp only [step, hfetch, idleStep, hact]

end Sys2Proof.Machine
end

section
/-! PROOFS. The reset and the hazards of spec 70: before the first NEW_CONTEXT and while a command runs, commands are refused
(O6). -/

namespace Sys2Proof.Machine

/-! ## Commands out of turn (R190, R193) -/

/-- An instance not yet created has no command but NEW_CONTEXT; code 11 has a refusal of its own (R190, R82). -/
theorem exec_command_uncreated {i : Instr} {s : State} (hact : s.activity = .uncreated) (hc : isCommand i = true)
    (hnew : i ≠ .newContext) (hres : i ≠ .reserved) : exec i s = .refused .noContext := by
  cases i with
  | setDimensions w h => simp only [exec, execSetDimensions, hact]
  | processMessage input => simp only [exec, execProcessMessage, hact]
  | newContext => exact absurd rfl hnew
  | reserved => exact absurd rfl hres
  | _ => cases hc

/-- A running command lets no other command in; code 11 has a refusal of its own (R193, R82). -/
theorem exec_command_running {i : Instr} {s : State} {m : List Byte} {work : Work} {stage : Stage}
    (hact : s.activity = .running m work stage) (hc : isCommand i = true) (hres : i ≠ .reserved) :
    exec i s = .refused .commandRunning := by
  cases i with
  | newContext => simp only [exec, execNewContext, hact]
  | setDimensions w h => simp only [exec, execSetDimensions, hact]
  | processMessage input => simp only [exec, execProcessMessage, hact]
  | reserved => exact absurd rfl hres
  | _ => cases hc

/-- Before the first NEW_CONTEXT a step with no command to take is refused, where the idle core would hold its context
(R190, R186). -/
theorem step_uncreated_of_no_pending {s : State} (hact : s.activity = .uncreated) (hpending : s.pending = []) :
    step s = .refused .noContext := by
  have hfetch : fetch s = none := by rw [fetch_command (.inr hact), hpending]; rfl
  simp only [step, hfetch, idleStep, hact]

/-- Settles O6: every command it names is one that its state does not let in. -/
theorem commandsAreRefusedOutOfTurn : Obligations.CommandsAreRefusedOutOfTurn := by
  refine ⟨fun s w h input hact => ⟨?_, ?_, step_uncreated_of_no_pending hact⟩,
    fun s m work stage w h input hact => ⟨?_, ?_, ?_⟩⟩
  · exact exec_command_uncreated hact rfl nofun nofun
  · exact exec_command_uncreated hact rfl nofun nofun
  · exact exec_command_running hact rfl nofun
  · exact exec_command_running hact rfl nofun
  · exact exec_command_running hact rfl nofun

end Sys2Proof.Machine
end
